-- ==== Sys2Proof/Config.lean ====
section
/-! DEFINITION. The implementation parameters of spec/00_scope.md R8. The two open ones are a record that State carries
(DESIGN CHOICE, log 6); the fixed ones are constants. -/

namespace Sys2Proof

/-- The open parameters of R8 (decisions D4, D5): how many tables a build has and how many codes one table holds. -/
structure Config where
  /-- `TABLE_COUNT`, 1..16. -/
  tableCount : Nat
  /-- `MAX_ENTRIES`, 1..65535. -/
  maxEntries : Nat
  deriving DecidableEq, Repr

/-- What every conforming configuration satisfies (R8). -/
abbrev Config.Conforming (c : Config) : Prop :=
  (1 ≤ c.tableCount ∧ c.tableCount ≤ 16) ∧ (1 ≤ c.maxEntries ∧ c.maxEntries ≤ 65535)

/-- The defaults R8 states. -/
def Config.default : Config := { tableCount := 8, maxEntries := 256 }

/-- `MIN_CODE_LEN` (R8). -/
def minCodeLen : Nat := 1

/-- `MAX_CODE_LEN` (R8). -/
def maxCodeLen : Nat := 16

/-- `MAX_RAW_LEN` (R8). -/
def maxRawLen : Nat := 16

end Sys2Proof
end

