-- ==== Sys2Proof/Word.lean ====
section
/-! DEFINITION. The word types of the block: command words, register words, fields and bit strings (spec/00_scope.md R9, R10). -/

namespace Sys2Proof

/-- A command word (R71): one transfer of the command port. -/
abbrev CmdWord := BitVec 64

/-- A register as the host reads it (R36). -/
abbrev RegWord := BitVec 32

/-- A byte of a stored command word (R59) or of the reference source's buffer (R55). -/
abbrev Byte := BitVec 8

/-- A symbol 0..255 (R16). -/
abbrev Symbol := BitVec 8

/-- A bit string of R9, the bit taken first standing first. -/
abbrev Bits := List Bool

end Sys2Proof
end

