-- ==== Sys2Proof/Syntax.lean ====
section
/-! DEFINITION. The six commands of spec/opcode_table.json, each with the operand fields spec/30_encoding.md R72 gives it. -/

namespace Sys2Proof

/-- One command (R5, R72). A field holds every value its bits can spell (R74 to R77): a value that the spec then refuses
(a length of 17, a table that is not there) is written down and answered by the fault the spec names. -/
inductive Instr where
  /-- `CLR T<t>`: empty table t (R89). -/
  | clr (t : BitVec 4)
  /-- `INS T<t>, <L>, <code>, <sym>`: add one code (R92). -/
  | ins (t : BitVec 4) (len : BitVec 8) (code : BitVec 16) (sym : Symbol)
  /-- `DEC T<t>`: decode one symbol (R101). -/
  | dec (t : BitVec 4)
  /-- `RCV <n>`: read n raw bits (R113). -/
  | rcv (n : BitVec 8)
  /-- `RCVX <n>`: read n raw bits and extend (R118). -/
  | rcvx (n : BitVec 8)
  /-- `ACK`: clear a recorded fault (R123). -/
  | ack
  deriving DecidableEq, Repr

end Sys2Proof
end

