-- ==== Sys2Proof/WellFormed.lean ====
section
/-! DEFINITION. Which commands pass the operand checks of spec/30_encoding.md R79. An ill-formed command is still a command
the block carries out: its meaning takes the fault the spec names. -/

namespace Sys2Proof

/-- `TBL` names a table of this build (R74). -/
abbrev tableInRange (cfg : Config) (t : BitVec 4) : Prop := t.toNat < cfg.tableCount

/-- `LEN` is a code length `INS` takes (R75). -/
abbrev codeLenInRange (len : BitVec 8) : Prop := minCodeLen ≤ len.toNat ∧ len.toNat ≤ maxCodeLen

/-- `LEN` is a width `RCV` and `RCVX` take (R75). -/
abbrev rawLenInRange (n : BitVec 8) : Prop := n.toNat ≤ maxRawLen

/-- `CODE` fits its length (R77). -/
abbrev codeFits (len : BitVec 8) (code : BitVec 16) : Prop := code.toNat < 2 ^ len.toNat

/-- The checks of R79 that do not depend on `TABLE_COUNT`: what the assembler of R84 refuses otherwise. -/
def Instr.assemblable : Instr → Bool
  | .clr _ => true
  | .ins _ len code _ => decide (codeLenInRange len) && decide (codeFits len code)
  | .dec _ => true
  | .rcv n => decide (rawLenInRange n)
  | .rcvx n => decide (rawLenInRange n)
  | .ack => true

/-- All the operand checks of R79, for a build with configuration `cfg`. -/
def Instr.wellFormed (cfg : Config) : Instr → Bool
  | .clr t => decide (tableInRange cfg t)
  | .ins t len code _ =>
      decide (tableInRange cfg t) && decide (codeLenInRange len) && decide (codeFits len code)
  | .dec t => decide (tableInRange cfg t)
  | .rcv n => decide (rawLenInRange n)
  | .rcvx n => decide (rawLenInRange n)
  | .ack => true

end Sys2Proof
end

