-- ==== Sys2Proof/Decode.lean ====
section
/-! DEFINITION. Decoding a command word (spec/30_encoding.md R71 to R83), rejecting by name, the encoder written from the
same tables, and the stored form of a word (spec/20_memory.md R59). -/

namespace Sys2Proof

/-! ### The fields of a command word (R71) -/

/-- `OP`, bits 63:56. -/
def opField (w : CmdWord) : BitVec 8 := w.extractLsb' 56 8

/-- `TBL`, bits 55:52. -/
def tblField (w : CmdWord) : BitVec 4 := w.extractLsb' 52 4

/-- `RSV1`, bits 51:48. -/
def rsv1Field (w : CmdWord) : BitVec 4 := w.extractLsb' 48 4

/-- `LEN`, bits 47:40. -/
def lenField (w : CmdWord) : BitVec 8 := w.extractLsb' 40 8

/-- `SYM`, bits 39:32. -/
def symField (w : CmdWord) : BitVec 8 := w.extractLsb' 32 8

/-- `RSV2`, bits 31:16. -/
def rsv2Field (w : CmdWord) : BitVec 16 := w.extractLsb' 16 16

/-- `CODE`, bits 15:0. -/
def codeField (w : CmdWord) : BitVec 16 := w.extractLsb' 0 16

/-- A word from its fields (R71), most significant first. -/
def packWord (op : BitVec 8) (tbl rsv1 : BitVec 4) (len sym : BitVec 8) (rsv2 code : BitVec 16) : CmdWord :=
  op ++ (tbl ++ (rsv1 ++ (len ++ (sym ++ (rsv2 ++ code)))))

/-! ### The opcode map (R73) and the fields each command uses (R72) -/

/-- The six operations `OP` selects among. -/
inductive Op where
  | clr | ins | dec | rcv | rcvx | ack
  deriving DecidableEq, Repr

/-- The `OP` value of each command (R72, R73). -/
def Op.code : Op → BitVec 8
  | .clr => 0x01
  | .ins => 0x02
  | .dec => 0x03
  | .rcv => 0x04
  | .rcvx => 0x05
  | .ack => 0x06

/-- The opcode map (R73): every other `OP` is illegal (R81). -/
def opOf (op : BitVec 8) : Option Op :=
  match op.toNat with
  | 1 => some .clr
  | 2 => some .ins
  | 3 => some .dec
  | 4 => some .rcv
  | 5 => some .rcvx
  | 6 => some .ack
  | _ => none

/-- Which operand fields a command uses (R72): `false` where the table has a 0. -/
structure FieldUse where
  tbl  : Bool
  len  : Bool
  sym  : Bool
  code : Bool
  deriving DecidableEq, Repr

/-- The rows of R72. -/
def Op.uses : Op → FieldUse
  | .clr  => { tbl := true,  len := false, sym := false, code := false }
  | .ins  => { tbl := true,  len := true,  sym := true,  code := true }
  | .dec  => { tbl := true,  len := false, sym := false, code := false }
  | .rcv  => { tbl := false, len := true,  sym := false, code := false }
  | .rcvx => { tbl := false, len := true,  sym := false, code := false }
  | .ack  => { tbl := false, len := false, sym := false, code := false }

/-- `RSV1` or `RSV2` is not zero (R80). -/
def reservedFieldSet (w : CmdWord) : Bool := rsv1Field w != 0 || rsv2Field w != 0

/-- A field that R72 marks 0 for this operation is not zero (R80). -/
def unusedFieldSet (op : Op) (w : CmdWord) : Bool :=
  (!op.uses.tbl && tblField w != 0) || (!op.uses.len && lenField w != 0) ||
    (!op.uses.sym && symField w != 0) || (!op.uses.code && codeField w != 0)

/-- The operands of a word whose operation is known (R72, R74 to R78: taken as they stand). -/
def operands (w : CmdWord) : Op → Instr
  | .clr => .clr (tblField w)
  | .ins => .ins (tblField w) (lenField w) (codeField w) (symField w)
  | .dec => .dec (tblField w)
  | .rcv => .rcv (lenField w)
  | .rcvx => .rcvx (lenField w)
  | .ack => .ack

/-! ### Decoding (R79) -/

/-- Why a word is no command (R79). -/
inductive DecodeFault where
  /-- `ILLEGAL_OP` (R130). -/
  | illegalOp
  /-- `RESERVED_BITS` (R131). -/
  | reservedBits
  deriving DecidableEq, Repr

/-- What decoding a word gives. -/
inductive Decoded where
  | command (i : Instr)
  | raises (f : DecodeFault)
  deriving DecidableEq, Repr

/-- The checks of R79 that read the word alone, in R79's order. The operand checks that follow them are the meanings'. -/
def decode (w : CmdWord) : Decoded :=
  match opOf (opField w) with
  | none => .raises .illegalOp
  | some op =>
    if reservedFieldSet w || unusedFieldSet op w then .raises .reservedBits
    else .command (operands w op)

/-! ### Encoding (R72, R83) -/

/-- The one word that spells a command (R80). -/
def encode : Instr → CmdWord
  | .clr t => packWord Op.clr.code t 0 0 0 0 0
  | .ins t len code sym => packWord Op.ins.code t 0 len sym 0 code
  | .dec t => packWord Op.dec.code t 0 0 0 0 0
  | .rcv n => packWord Op.rcv.code 0 0 n 0 0 0
  | .rcvx n => packWord Op.rcvx.code 0 0 n 0 0 0
  | .ack => packWord Op.ack.code 0 0 0 0 0 0

/-- The exact `ACK` word (R123). -/
def ackWord : CmdWord := 0x0600000000000000

/-- The match and mask of each command (R83). -/
def Op.shape : Op → CmdWord × CmdWord
  | .clr  => (0x0100000000000000, 0xFF0FFFFFFFFFFFFF)
  | .ins  => (0x0200000000000000, 0xFF0F0000FFFF0000)
  | .dec  => (0x0300000000000000, 0xFF0FFFFFFFFFFFFF)
  | .rcv  => (0x0400000000000000, 0xFFFF00FFFFFFFFFF)
  | .rcvx => (0x0500000000000000, 0xFFFF00FFFFFFFFFF)
  | .ack  => (0x0600000000000000, 0xFFFFFFFFFFFFFFFF)

/-- A word has a command's shape (R83). -/
def hasShape (op : Op) (w : CmdWord) : Bool := w &&& op.shape.2 == op.shape.1

/-- The operation of a command. -/
def Instr.op : Instr → Op
  | .clr _ => .clr
  | .ins _ _ _ _ => .ins
  | .dec _ => .dec
  | .rcv _ => .rcv
  | .rcvx _ => .rcvx
  | .ack => .ack

/-! ### A stored word (R59): eight bytes, bits 63:56 first -/

/-- The eight bytes of a word, as it is stored or carried. -/
def bytesOfWord (w : CmdWord) : List Byte :=
  [w.extractLsb' 56 8, w.extractLsb' 48 8, w.extractLsb' 40 8, w.extractLsb' 32 8,
   w.extractLsb' 24 8, w.extractLsb' 16 8, w.extractLsb' 8 8, w.extractLsb' 0 8]

/-- The word at the head of a byte string, with the rest: `none` when fewer than eight bytes are left (DESIGN CHOICE, log 9). -/
def wordOfBytes : List Byte → Option (CmdWord × List Byte)
  | b0 :: b1 :: b2 :: b3 :: b4 :: b5 :: b6 :: b7 :: rest =>
      some (b0 ++ (b1 ++ (b2 ++ (b3 ++ (b4 ++ (b5 ++ (b6 ++ b7)))))), rest)
  | _ => none

/-- Decoding stored bytes: total on any bytes, every refusal named. -/
def decodeBytes (bs : List Byte) : Option (Decoded × List Byte) :=
  match wordOfBytes bs with
  | none => none
  | some (w, rest) => some (decode w, rest)

/-- The command of a decoding, if it is one. -/
def Decoded.toOption : Decoded → Option Instr
  | .command i => some i
  | .raises _ => none

/-- The command word an opcode-table word stands for: its low `nbits` bits, zeros above (DESIGN CHOICE, log 9). -/
def tableWord (nbits w : Nat) : CmdWord := BitVec.ofNat 64 (w % 2 ^ nbits)

/-- The command the decoder reads from an opcode-table word, through its stored bytes (R59). -/
def decodeTableWord (nbits w : Nat) : Option Instr :=
  match decodeBytes (bytesOfWord (tableWord nbits w)) with
  | some (d, _) => d.toOption
  | none => none

end Sys2Proof
end

