-- ==== Sys2Proof/Machine/State.lean ====
section
/-! DEFINITION. The state of the block (spec/10_state.md) as plain data, the reasons a step can stop, and the state after
reset (R45). -/

namespace Sys2Proof.Machine

/-- One answer of the bit port (R47). -/
inductive Token where
  | bit0
  | bit1
  /-- The end-of-stream sentinel `NONE`. -/
  | eos
  deriving DecidableEq, Repr

/-- The status codes of `RES_STATUS` (R32). -/
inductive ResStatus where
  | ok
  | none
  | fault
  | rejected
  deriving DecidableEq, Repr

/-- The fault causes (R129). -/
inductive Cause where
  | illegalOp
  | reservedBits
  | badTable
  | badLength
  | badCode
  | codeConflict
  | tableFull
  | emptyTable
  | invalidCode
  deriving DecidableEq, Repr

/-- One codeword of a table with the symbol stored under it (R22). -/
structure Entry where
  code : Bits
  sym  : Symbol
  deriving DecidableEq, Repr

/-- A code table (R22, R25): a finite map from codewords to symbols, listed with its codewords rising, so that equal maps
are equal lists (DESIGN CHOICE, log 7). -/
abbrev Table := List Entry

/-- A command that waits for a token (R42). -/
inductive InFlight where
  /-- A `DEC` with table t that has taken the bits `p` (R103). -/
  | walk (t : BitVec 4) (p : Bits)
  /-- An `RCV` (or, `extended`, an `RCVX`) of width `n` that has taken `taken` bits, of value `value` (R113). -/
  | raw (extended : Bool) (n taken value : Nat)
  deriving DecidableEq, Repr

/-- Everything the spec gives the block, and the pending transfers of its three input ports (R18, R21). -/
structure State where
  /-- `TABLE_COUNT` and `MAX_ENTRIES` (R8, R43), as `CONFIG` reads them (R36). Nothing changes it (DESIGN CHOICE, log 6). -/
  cfg       : Config
  /-- `TABLE[0]` to `TABLE[TABLE_COUNT-1]` (R22). -/
  tables    : List Table
  /-- `STATUS.FAULT` (R27). -/
  fault     : Bool
  /-- `STATUS.CAUSE` (R27). -/
  cause     : BitVec 4
  /-- `RESULT.RES_STATUS` (R29). -/
  resStatus : ResStatus
  /-- `RESULT.RES_NBITS` (R29). -/
  resNbits  : BitVec 5
  /-- `RES_VALUE` (R30). -/
  resValue  : RegWord
  /-- `BITCNT` (R34). -/
  bitcnt    : RegWord
  /-- The command in progress, if one waits for a token (R42). -/
  inFlight  : Option InFlight
  /-- INPUT: the words on the command port that the block has not accepted, oldest first (R156; DESIGN CHOICE, log 1). -/
  cmds      : List CmdWord
  /-- INPUT: what the bit source answers the next requests with, oldest first (R47; DESIGN CHOICE, log 2). -/
  tokens    : List Token
  /-- INPUT: the `rst` pin (R21, R151; DESIGN CHOICE, log 5). -/
  rst       : Bool
  deriving DecidableEq, Repr

/-- The one reason a meaning stops. A spec fault (R129) is not one: it is a next state with `STATUS` written. -/
inductive Fault where
  /-- Raised by every meaning when it is called on a state in which another command is in progress, where R156 accepts no
  word. `step` never calls one there, so no run ends in it. Safe. -/
  | commandInProgress
  deriving DecidableEq, Repr

/-- Reasons for which an instruction has no meaning. -/
inductive Refusal where
  /-- Raised by an arm of `exec` for a command without a meaning. No arm of this model does. Safe. -/
  | notModelled (mnemonic : String)
  deriving DecidableEq, Repr

/-- The block right after reset (R45), with configuration `cfg`: every table empty, every register 0, no command in
progress; the input ports carry nothing (DESIGN CHOICE, log 1, 2, 5). -/
def State.resetWith (cfg : Config) : State where
  cfg       := cfg
  tables    := List.replicate cfg.tableCount []
  fault     := false
  cause     := 0
  resStatus := .ok
  resNbits  := 0
  resValue  := 0
  bitcnt    := 0
  inFlight  := none
  cmds      := []
  tokens    := []
  rst       := false

/-- The block right after reset, with the default parameters of R8. -/
def State.reset : State := State.resetWith Config.default

end Sys2Proof.Machine
end

