-- ==== Sys2Proof/Machine/Flags.lean ====
section
/-! DEFINITION. The status and cause codes, and the two words of the status registers (spec/10_state.md R27, R29, R32,
spec/60_exceptions.md R129, R146). -/

namespace Sys2Proof.Machine

/-- The code of a status (R32). -/
def ResStatus.code : ResStatus → BitVec 2
  | .ok => 0
  | .none => 1
  | .fault => 2
  | .rejected => 3

/-- The code of a cause (R129). -/
def Cause.code : Cause → BitVec 4
  | .illegalOp => 1
  | .reservedBits => 2
  | .badTable => 3
  | .badLength => 4
  | .badCode => 5
  | .codeConflict => 6
  | .tableFull => 7
  | .emptyTable => 8
  | .invalidCode => 9

/-- The cause a word raises that decodes to no command (R130, R131). -/
def decodeCause : DecodeFault → Cause
  | .illegalOp => .illegalOp
  | .reservedBits => .reservedBits

/-- `STATUS` (R27): CAUSE in bits 7:4, FAULT in bit 0, zeros elsewhere. -/
def statusWord (s : State) : RegWord :=
  (0 : BitVec 24) ++ (s.cause ++ ((0 : BitVec 3) ++ BitVec.ofBool s.fault))

/-- `RESULT` (R29): RES_NBITS in bits 12:8, RES_STATUS in bits 1:0, zeros elsewhere. -/
def resultWord (s : State) : RegWord :=
  (0 : BitVec 19) ++ (s.resNbits ++ ((0 : BitVec 6) ++ s.resStatus.code))

/-- The `irq` output (R146): a level equal to `STATUS.FAULT`. -/
def irq (s : State) : Bool := s.fault

end Sys2Proof.Machine
end

