-- ==== Sys2Proof/Machine/Operands.lean ====
section
/-! DEFINITION. The operand forms: codewords from code values (spec/00_scope.md R10), prefixes, raw values and EXTEND
(spec/42_raw_bits.md R119). -/

namespace Sys2Proof.Machine

/-- `bits_L(c)`: the L-bit representation of c, most significant bit first, zero-padded on the left (R10). -/
def bitsOf : Nat → Nat → Bits
  | 0, _ => []
  | l + 1, c => c.testBit l :: bitsOf l c

/-- One more bit at the low end of a value: the `2*raw + b` of R113. -/
def pushBit (v : Nat) (b : Bool) : Nat := 2 * v + b.toNat

/-- `value(s)`: the number whose representation is `s` (R10), the first bit weighing most (R115). -/
def valueOf (s : Bits) : Nat := s.foldl pushBit 0

/-- `p` is a prefix of `s` (R10). -/
def isPrefix (p s : Bits) : Bool := p.isPrefixOf s

/-- `p` is a proper prefix of `s` (R10). -/
def isProperPrefix (p s : Bits) : Bool := isPrefix p s && decide (p.length < s.length)

/-- The codeword an `INS` names with `LEN` and `CODE` (R77). -/
def codeword (len : BitVec 8) (code : BitVec 16) : Bits := bitsOf len.toNat code.toNat

/-- The bit of a token; `NONE` carries none (R47). -/
def Token.bit : Token → Option Bool
  | .bit0 => some false
  | .bit1 => some true
  | .eos => none

/-- The token that carries a bit (R47). -/
def Token.ofBit (b : Bool) : Token := if b then .bit1 else .bit0

/-- `EXTEND(raw, n)` (R119). -/
def extend (raw n : Nat) : Int :=
  if n = 0 then 0
  else if raw.testBit (n - 1) then (raw : Int)
  else (raw : Int) - 2 ^ n + 1

/-- What `RES_VALUE` holds when a raw read of width n ends with value `raw`: `zext_32(raw)` (R113), or
`sext_32(EXTEND(raw, n))` for `RCVX` (R118). -/
def rawResult (extended : Bool) (n raw : Nat) : RegWord :=
  if extended then BitVec.ofInt 32 (extend raw n) else BitVec.ofNat 32 raw

end Sys2Proof.Machine
end

