-- ==== Sys2Proof/Machine/Tables.lean ====
section
/-! DEFINITION. The table store (spec/10_state.md R22 to R26): reading and changing one table, and reaching a table of the
state. -/

namespace Sys2Proof.Machine

/-- The order a table's codewords stand in (DESIGN CHOICE, log 7): the order of a dictionary, 0 before 1. -/
def codeLt : Bits → Bits → Bool
  | _, [] => false
  | [], _ :: _ => true
  | false :: _, true :: _ => true
  | true :: _, false :: _ => false
  | _ :: x, _ :: y => codeLt x y

/-- `TABLE[t](s)`: the symbol under a codeword, or absent (R11). -/
def lookup (tab : Table) (s : Bits) : Option Symbol :=
  match tab with
  | [] => none
  | e :: rest => if e.code = s then some e.sym else lookup rest s

/-- `ENTRIES(t)`: the number of codewords in a table (R23). -/
def entries (tab : Table) : Nat := tab.length

/-- The new codeword and one of the table are such that one is a prefix of the other (R93). -/
def conflicts (tab : Table) (s : Bits) : Bool :=
  tab.any fun e => isPrefix e.code s || isPrefix s e.code

/-- Some codeword of the table has `p` as a proper prefix: `p` is an internal node of the tree (R101, R102). -/
def isInternal (tab : Table) (p : Bits) : Bool :=
  tab.any fun e => isProperPrefix p e.code

/-- `TABLE[t](s) := sym` on one table (R92), keeping the codewords in order. -/
def insertEntry (s : Bits) (sym : Symbol) : Table → Table
  | [] => [{ code := s, sym := sym }]
  | e :: rest =>
    if e.code = s then { code := s, sym := sym } :: rest
    else if codeLt s e.code then { code := s, sym := sym } :: e :: rest
    else e :: insertEntry s sym rest

/-- `TABLE[t]` of a state: empty where the build has no such table (R35; DESIGN CHOICE, log 13). -/
def State.table (s : State) (t : BitVec 4) : Table := s.tables.getD t.toNat []

/-- Replace `TABLE[t]`. -/
def State.setTable (s : State) (t : BitVec 4) (tab : Table) : State :=
  { s with tables := s.tables.set t.toNat tab }

/-- `TBL` is not below `TABLE_COUNT` (R132). -/
def State.lacksTable (s : State) (t : BitVec 4) : Bool := decide (s.cfg.tableCount ≤ t.toNat)

end Sys2Proof.Machine
end

