-- ==== Sys2Proof/Machine/Ops.lean ====
section
/-! DEFINITION. The shared operations: completing a command, raising a fault and returning from one, accepting a command,
taking bits from the bit port, changing a table, reset, and fetching a command word. -/

namespace Sys2Proof.Machine

/-! ### Completion (R33), fault entry (R135) and return (R139) -/

/-- `complete(status, value, nbits)` (R33): the result registers are written and no command is in progress any more (R14;
DEDUCED, log 15). -/
def complete (status : ResStatus) (value : RegWord) (nbits : Nat) (s : State) : State :=
  { s with
    resStatus := status
    resNbits := BitVec.ofNat 5 nbits
    resValue := if status = .ok then value else 0
    inFlight := none }

/-- `raise <Cause>` after `n` bits (R135): the one way a fault is taken. -/
def raise (c : Cause) (n : Nat) (s : State) : State :=
  complete .fault 0 n { s with fault := true, cause := c.code }

/-- The return from a fault (R123, R139): clears the record and restores nothing else. -/
def acknowledge (s : State) : State :=
  complete .ok 0 0 { s with fault := false, cause := 0 }

/-- What a meaning does first, `body` being what its command does on a block that is not faulted: a word is taken only when
no command is in progress (R156), and a faulted block rejects it without effect (R126). -/
def accept (body : State → State) (s : State) : Host.Outcome State Fault Refusal :=
  if s.inFlight.isSome then .fault .commandInProgress
  else if s.fault then .next (complete .rejected 0 0 s)
  else .next (body s)

/-- As `accept`, for the one command a faulted block carries out (R126). -/
def acceptWhileFaulted (body : State → State) (s : State) : Host.Outcome State Fault Refusal :=
  if s.inFlight.isSome then .fault .commandInProgress else .next (body s)

/-! ### Table load (R89, R92) -/

/-- `CLR` on a table that exists (R89). -/
def clearTable (t : BitVec 4) (s : State) : State :=
  complete .ok 0 0 (s.setTable t [])

/-- `INS` of a codeword once its operands have passed (R92): the conflict check, the room check, the write. -/
def insertCode (t : BitVec 4) (cw : Bits) (sym : Symbol) (s : State) : State :=
  if conflicts (s.table t) cw then raise .codeConflict 0 s
  else if s.cfg.maxEntries ≤ entries (s.table t) then raise .tableFull 0 s
  else complete .ok 0 0 (s.setTable t (insertEntry cw sym (s.table t)))

/-! ### The bit port (R12, R34, R47 to R54) -/

/-- `BITCNT` counts a `BIT0` or `BIT1` that the block has taken (R34). -/
def countBit (s : State) : State := { s with bitcnt := s.bitcnt + 1 }

/-- The walk of a `DEC` with table t stands at `p`, `p` not empty: a leaf ends it, an internal node asks for one bit more, and
a node that is not there is a fault (R101, R104, R106). -/
def walkAt (t : BitVec 4) (p : Bits) (s : State) : State :=
  match lookup (s.table t) p with
  | some sym => complete .ok (sym.setWidth 32) p.length s
  | none =>
    if isInternal (s.table t) p then { s with inFlight := some (.walk t p) }
    else raise .invalidCode p.length s

/-- A raw read has taken `taken` bits of value `value`: it ends at its width, and asks for one bit more below it (R113, R118). -/
def rawAt (extended : Bool) (n taken value : Nat) (s : State) : State :=
  if n ≤ taken then complete .ok (rawResult extended n value) n s
  else { s with inFlight := some (.raw extended n taken value) }

/-- The bits a waiting command has taken so far (R42). -/
def InFlight.bitsTaken : InFlight → Nat
  | .walk _ p => p.length
  | .raw _ _ taken _ => taken

/-- A waiting command takes one bit (R34, R101, R113). -/
def takeBit (c : InFlight) (b : Bool) (s : State) : State :=
  match c with
  | .walk t p => walkAt t (p ++ [b]) (countBit s)
  | .raw extended n taken value => rawAt extended n (taken + 1) (pushBit value b) (countBit s)

/-- A waiting command gets the answer to its request: `NONE` ends it at once (R53, R105, R116). -/
def takeToken (c : InFlight) (tok : Token) (s : State) : State :=
  match tok.bit with
  | some b => takeBit c b s
  | none => complete .none 0 c.bitsTaken s

/-- The command in progress takes its tokens one at a time, until it completes or the bit source has answered nothing more
(R48, R54): what it has not asked for stays at the source. -/
def serve : List Token → State → State
  | [], s => { s with tokens := [] }
  | tok :: rest, s =>
    match s.inFlight with
    | none => { s with tokens := tok :: rest }
    | some c => serve rest (takeToken c tok s)

/-- Let the command in progress go as far as the bit source's answers take it. With no answer nothing changes: the wait of
R54 (DEDUCED, log 3, 4). -/
def takeTokens (s : State) : State := serve s.tokens s

/-- A `DEC` begins its walk at the root (R101): it asks for its first bit. -/
def beginWalk (t : BitVec 4) (s : State) : State :=
  takeTokens { s with inFlight := some (.walk t []) }

/-- A raw read begins (R113, R118): of width 0 it ends without a request (R114). -/
def beginRaw (extended : Bool) (n : Nat) (s : State) : State :=
  takeTokens (rawAt extended n 0 0 s)

/-! ### Reset (R151, R152) and the command port (R156) -/

/-- `rst`: the values of R45. The configuration stays (R153), and the input ports are the host's and the bit source's:
tokens not yet asked for are still at the source (R152; DESIGN CHOICE, log 5). -/
def resetBlock (s : State) : State :=
  { State.resetWith s.cfg with cmds := s.cmds, tokens := s.tokens, rst := s.rst }

/-- The next word of the command port, if the host has put one there, and the state once it is accepted. -/
def fetch (s : State) : Option (CmdWord × State) :=
  match s.cmds with
  | [] => none
  | w :: rest => some (w, { s with cmds := rest })

/-- A word that is no command (R79): rejected while faulted, else the fault its decoding names. -/
def refuseWord (f : DecodeFault) (s : State) : Host.Outcome State Fault Refusal :=
  accept (raise (decodeCause f) 0) s

end Sys2Proof.Machine
end

