-- ==== Sys2Proof/Machine/Control.lean ====
section
/-! DEFINITION. The control command `ACK` (spec/43_control.md). -/

namespace Sys2Proof.Machine

/-- `ACK` (R123): carried out whether or not the block is faulted (R124, R126). -/
def execAck (s : State) : Host.Outcome State Fault Refusal :=
  acceptWhileFaulted acknowledge s

end Sys2Proof.Machine
end

