-- ==== Sys2Proof/Machine/RawBits.lean ====
section
/-! DEFINITION. The raw bit commands `RCV` and `RCVX` (spec/42_raw_bits.md). -/

namespace Sys2Proof.Machine

/-- `RCV n` (R113). -/
def execRcv (n : BitVec 8) (s : State) : Host.Outcome State Fault Refusal :=
  accept (fun s => if ¬ rawLenInRange n then raise .badLength 0 s else beginRaw false n.toNat s) s

/-- `RCVX n` (R118). -/
def execRcvx (n : BitVec 8) (s : State) : Host.Outcome State Fault Refusal :=
  accept (fun s => if ¬ rawLenInRange n then raise .badLength 0 s else beginRaw true n.toNat s) s

end Sys2Proof.Machine
end

