-- ==== Sys2Proof/Machine/SymbolDecode.lean ====
section
/-! DEFINITION. The symbol decode command `DEC` (spec/41_symbol_decode.md). -/

namespace Sys2Proof.Machine

/-- `DEC T<t>` (R101): an empty table is a fault before any bit (R107), else the walk begins. -/
def execDec (t : BitVec 4) (s : State) : Host.Outcome State Fault Refusal :=
  accept (fun s =>
    if s.lacksTable t then raise .badTable 0 s
    else if entries (s.table t) = 0 then raise .emptyTable 0 s
    else beginWalk t s) s

end Sys2Proof.Machine
end

