-- ==== Sys2Proof/Machine/TableLoad.lean ====
section
/-! DEFINITION. The table load commands `CLR` and `INS` (spec/40_table_load.md). -/

namespace Sys2Proof.Machine

/-- `CLR T<t>` (R89). -/
def execClr (t : BitVec 4) (s : State) : Host.Outcome State Fault Refusal :=
  accept (fun s => if s.lacksTable t then raise .badTable 0 s else clearTable t s) s

/-- `INS T<t>, L, c, sym` (R92), its operand checks in the order of R79. -/
def execIns (t : BitVec 4) (len : BitVec 8) (code : BitVec 16) (sym : Symbol) (s : State) :
    Host.Outcome State Fault Refusal :=
  accept (fun s =>
    if s.lacksTable t then raise .badTable 0 s
    else if ¬ codeLenInRange len then raise .badLength 0 s
    else if ¬ codeFits len code then raise .badCode 0 s
    else insertCode t (codeword len code) sym s) s

end Sys2Proof.Machine
end

