-- ==== Sys2Proof/Machine/Dispatch.lean ====
section
/-! DEFINITION. One arm per command: which meaning carries it out. -/

namespace Sys2Proof.Machine

def exec (i : Instr) (s : State) : Host.Outcome State Fault Refusal :=
  match i with
  | .clr t => Sys2Proof.Machine.execClr t s
  | .ins t len code sym => Sys2Proof.Machine.execIns t len code sym s
  | .dec t => Sys2Proof.Machine.execDec t s
  | .rcv n => Sys2Proof.Machine.execRcv n s
  | .rcvx n => Sys2Proof.Machine.execRcvx n s
  | .ack => Sys2Proof.Machine.execAck s

end Sys2Proof.Machine
end

