-- ==== Sys2Proof/Machine/Step.lean ====
section
/-! DEFINITION. One step of the block (spec/00_scope.md R18), and how the host's checks place a command. -/

namespace Sys2Proof.Machine

/-- A fetched word is decoded and carried out (R79). -/
def acceptWord (w : CmdWord) (s : State) : Host.Outcome State Fault Refusal :=
  match decode w with
  | .command i => exec i s
  | .raises f => refuseWord f s

/-- One step: reset wins over everything (R141); a command in progress goes on (R156); an idle block takes the next word
of the command port, and waits unchanged when there is none (R153). -/
def step (s : State) : Host.Outcome State Fault Refusal :=
  if s.rst then .next (resetBlock s)
  else if s.inFlight.isSome then .next (takeTokens s)
  else
    match fetch s with
    | none => .next s
    | some (w, t) => acceptWord w t

/-- `s` with a command word at the head of the command port, where the next step accepts it: no command is in progress and
`rst` is not asserted (DESIGN CHOICE, log 1). -/
def State.withFetchWord (s : State) (nbits w : Nat) : State :=
  { s with cmds := tableWord nbits w :: s.cmds.drop 1, inFlight := none, rst := false }

end Sys2Proof.Machine
end

