-- ==== Sys2Proof/Machine/HostSequences.lean ====
section
/-! DEFINITION. The host's side of spec/30_encoding.md: the pseudo-instructions `LOADTAB` (R85) and `LOADCANON` (R88), and the
host sequences `DCDIFF` (R86) and `ACSYM` (R87). The block sees only the commands they send. -/

namespace Sys2Proof.Machine

/-- One entry of a table definition: length, code value, symbol (R85). -/
structure LoadEntry where
  len  : Nat
  code : Nat
  sym  : Symbol
  deriving DecidableEq, Repr

/-- The `INS` of an entry, unless an operand does not fit its field or breaks a check of R79 (R84). -/
def insOf (t : BitVec 4) (e : LoadEntry) : Option Instr :=
  if minCodeLen ≤ e.len ∧ e.len ≤ maxCodeLen ∧ e.code < 2 ^ e.len then
    some (.ins t (BitVec.ofNat 8 e.len) (BitVec.ofNat 16 e.code) e.sym)
  else none

/-- The `INS` commands of a list of entries, in the listed order. -/
def insAll (t : BitVec 4) : List LoadEntry → Option (List Instr)
  | [] => some []
  | e :: rest =>
    match insOf t e, insAll t rest with
    | some i, some is => some (i :: is)
    | _, _ => none

/-- `LOADTAB T<t>, entries` (R85): a `CLR`, then one `INS` per entry. -/
def loadTab (t : BitVec 4) (es : List LoadEntry) : Option (List Instr) :=
  (insAll t es).map fun is => .clr t :: is

/-- The codes of one length: consecutive code values from `code` on, one per symbol (R88). -/
def codesOfLength (len : Nat) : Nat → List Symbol → List LoadEntry
  | _, [] => []
  | code, v :: vs => { len := len, code := code, sym := v } :: codesOfLength len (code + 1) vs

/-- The assignment of R88 from length `len` on: `counts` are BITS[len], BITS[len+1], ..., `vals` the symbols not yet used. -/
def canonicalCodes (len code : Nat) : List Nat → List Symbol → List LoadEntry
  | [], _ => []
  | c :: cs, vals =>
    codesOfLength len code (vals.take c) ++ canonicalCodes (len + 1) ((code + c) * 2) cs (vals.drop c)

/-- `LOADCANON T<t>, BITS[1..16], HUFFVAL` (R88). -/
def loadCanon (t : BitVec 4) (counts : List Nat) (vals : List Symbol) : Option (List Instr) :=
  if counts.length = 16 ∧ counts.sum ≤ vals.length then loadTab t (canonicalCodes 1 0 counts vals) else none

/-- What the host does after the `DEC` of a `DCDIFF` (R86). -/
inductive DcNext where
  /-- L = 0: the difference is 0, nothing more is sent. -/
  | zero
  /-- Send `RCVX L`; its value is the difference. -/
  | send (i : Instr)
  /-- The `DEC` gave no symbol (DESIGN CHOICE, log 14). -/
  | noSymbol
  deriving DecidableEq, Repr

/-- `DCDIFF` after its `DEC`, from the result registers (R86). -/
def dcDiffAfterDec (s : State) : DcNext :=
  if s.resStatus = .ok then
    if s.resValue = 0 then .zero else .send (.rcvx (s.resValue.setWidth 8))
  else .noSymbol

/-- What the host does after the `DEC` of an `ACSYM` (R87). -/
inductive AcNext where
  | endOfBlock
  /-- A pure zero run. -/
  | zeroRun (run : BitVec 4)
  /-- A zero run, then the value that this command reads. -/
  | send (run : BitVec 4) (i : Instr)
  /-- The `DEC` gave no symbol (DESIGN CHOICE, log 14). -/
  | noSymbol
  deriving DecidableEq, Repr

/-- `ACSYM` after its `DEC`, from the result registers (R87): `run` is v[7:4], `size` is v[3:0]. -/
def acSymAfterDec (s : State) : AcNext :=
  if s.resStatus = .ok then
    if s.resValue = 0 then .endOfBlock
    else if s.resValue.extractLsb' 0 4 = 0 then .zeroRun (s.resValue.extractLsb' 4 4)
    else .send (s.resValue.extractLsb' 4 4) (.rcvx ((s.resValue.extractLsb' 0 4).setWidth 8))
  else .noSymbol

end Sys2Proof.Machine
end

