-- ==== Sys2Proof/Machine/Registers.lean ====
section
/-! DEFINITION. The register read port (spec/10_state.md R35, R36). A read is a function of the state: it changes nothing
(R37; DEDUCED, log 12). -/

namespace Sys2Proof.Machine

/-- `CONFIG` (R36): TABLE_COUNT in bits 4:0, MAX_ENTRIES in bits 31:16, zeros elsewhere. -/
def configWord (s : State) : RegWord :=
  BitVec.ofNat 16 s.cfg.maxEntries ++ ((0 : BitVec 11) ++ BitVec.ofNat 5 s.cfg.tableCount)

/-- `TBLCNT[t]` (R35). -/
def tblcntWord (s : State) (t : BitVec 4) : RegWord :=
  if t.toNat < s.cfg.tableCount then BitVec.ofNat 32 (entries (s.table t)) else 0

/-- The read map (R36): the 8-bit address names a whole register, its bits 1:0 ignored; reserved addresses read 0. -/
def readReg (s : State) (addr : BitVec 8) : RegWord :=
  match addr.toNat / 4 with
  | 0 => statusWord s
  | 1 => resultWord s
  | 2 => s.resValue
  | 3 => s.bitcnt
  | 4 => configWord s
  | k => if 16 ≤ k ∧ k < 32 then tblcntWord s (BitVec.ofNat 4 (k - 16)) else 0

end Sys2Proof.Machine
end

