-- ==== Sys2Proof/Machine/TreeView.lean ====
section
/-! DEFINITION. The tree view of a table (spec/10_state.md R24): the binary tree whose root-to-leaf paths are the codewords, 0
to the left and 1 to the right. A table is stored as the map; this is the equivalent view of R102. -/

namespace Sys2Proof.Machine

/-- A code tree (R24); `absent` is a node that is not there. -/
inductive Tree where
  | absent
  | leaf (sym : Symbol)
  | node (left right : Tree)
  deriving DecidableEq, Repr

/-- The tree with the path `s` added, a leaf at its end (R24). -/
def graft : Tree → Bits → Symbol → Tree
  | _, [], sym => .leaf sym
  | .node l r, false :: s, sym => .node (graft l s sym) r
  | .node l r, true :: s, sym => .node l (graft r s sym)
  | _, false :: s, sym => .node (graft .absent s sym) .absent
  | _, true :: s, sym => .node .absent (graft .absent s sym)

/-- The root alone: a node with no child, which the tree of every table starts from, the empty one's too (R24). -/
def Tree.root : Tree := .node .absent .absent

/-- The tree of a table (R24). -/
def treeOf (tab : Table) : Tree := tab.foldl (fun tr e => graft tr e.code e.sym) Tree.root

/-- The node a path leads to. -/
def nodeAt : Tree → Bits → Tree
  | tr, [] => tr
  | .node l _, false :: s => nodeAt l s
  | .node _ r, true :: s => nodeAt r s
  | _, _ :: _ => .absent

/-- What a walk finds at a node (R101, R102). -/
inductive Found where
  /-- A leaf: the walk ends with its symbol. -/
  | leaf (sym : Symbol)
  /-- An internal node, with one child or two: the walk takes one bit more. -/
  | inner
  /-- The root of an empty table: a node that holds no symbol and has no child (R24). No walk starts there (R107). -/
  | bareRoot
  /-- No node: the walk has left the tree. -/
  | missing
  deriving DecidableEq, Repr

/-- What stands at a node of the tree. -/
def Tree.found : Tree → Found
  | .absent => .missing
  | .leaf sym => .leaf sym
  | .node .absent .absent => .bareRoot
  | .node _ _ => .inner

/-- The same question put to the map (R101): the root is a node of every table (R24), any other node leads to a codeword. -/
def foundInMap (tab : Table) (p : Bits) : Found :=
  match lookup tab p with
  | some sym => .leaf sym
  | none => if isInternal tab p then .inner else if p = [] then .bareRoot else .missing

end Sys2Proof.Machine
end

