-- ==== Sys2Proof/Machine/RefSource.lean ====
section
/-! DEFINITION. The reference bit source (spec/20_memory.md R55, R56), an agent beside the block. No rule of the block depends
on it (R52). -/

namespace Sys2Proof.Machine

/-- The reference source over a byte buffer (R55). -/
structure RefSource where
  buf       : List Byte
  /-- Byte index. -/
  i         : Nat
  /-- Bit position within the byte, 0 the most significant. -/
  k         : Nat
  exhausted : Bool
  /-- `MARKER_FF_BITS_DELIVERED` (spec/93_implementation_defined.md I3): true is the reading R56 takes (DEDUCED, log 10). -/
  markerFfBitsDelivered : Bool
  deriving DecidableEq, Repr

/-- The source at the start of a buffer, in the reading of R56. -/
def RefSource.start (buf : List Byte) : RefSource where
  buf := buf
  i := 0
  k := 0
  exhausted := false
  markerFfBitsDelivered := true

/-- The cursor has taken the last bit of byte `b` (R55): a stuffed 0x00 after 0xFF is skipped; anything else after 0xFF, or
the end, exhausts the source. -/
def RefSource.crossByte (r : RefSource) (b : Byte) : RefSource :=
  if b = 0xFF then
    if r.buf[r.i + 1]? = some 0x00 then { r with i := r.i + 2, k := 0 }
    else { r with i := r.i + 1, k := 0, exhausted := true }
  else { r with i := r.i + 1, k := 0 }

/-- In the reading that R56 sets aside, the source stands at a 0xFF that starts a marker (I3). -/
def RefSource.atMarker (r : RefSource) (b : Byte) : Bool :=
  !r.markerFfBitsDelivered && r.k == 0 && b == 0xFF && r.buf[r.i + 1]? != some 0x00

/-- `RefPop()` (R55): one token, and the source after it. -/
def RefSource.pop (r : RefSource) : Token × RefSource :=
  if r.exhausted then (.eos, r)
  else
    match r.buf[r.i]? with
    | none => (.eos, r)
    | some b =>
      if r.atMarker b then (.eos, { r with exhausted := true })
      else
        (Token.ofBit (b.getLsbD (7 - r.k)),
          if r.k + 1 = 8 then r.crossByte b else { r with k := r.k + 1 })

/-- The answers to `n` requests, oldest first, and the source after them. -/
def RefSource.pops : Nat → RefSource → List Token × RefSource
  | 0, r => ([], r)
  | n + 1, r => (r.pop.1 :: (pops n r.pop.2).1, (pops n r.pop.2).2)

end Sys2Proof.Machine
end

