-- ==== Sys2Proof/Machine/Environment.lean ====
section
/-! DEFINITION. What the host and the bit source do to the block between two of its steps (spec/10_state.md R21, R38): they
put words on the command port, answer bit requests and drive `rst`, and nothing else. -/

namespace Sys2Proof.Machine

/-- The host puts a word on the command port, behind those it has put there (R21). -/
def offerWord (w : CmdWord) (s : State) : State := { s with cmds := s.cmds ++ [w] }

/-- The bit source has answers ready (R47). -/
def offerTokens (toks : List Token) (s : State) : State := { s with tokens := s.tokens ++ toks }

/-- The host drives the `rst` pin (R151). -/
def driveRst (level : Bool) (s : State) : State := { s with rst := level }

/-- A bit request stands unanswered (R48): a command is in progress and waits for a token. -/
def requestsBit (s : State) : Bool := s.inFlight.isSome && s.tokens.isEmpty

/-- The reference source answers the block's request, if one stands: one token, never ahead of need (R47, R48). -/
def answerRequest (r : RefSource) (s : State) : RefSource × State :=
  if requestsBit s then (r.pop.2, offerTokens [r.pop.1] s) else (r, s)

end Sys2Proof.Machine
end

