-- ==== Sys2Proof/Safety.lean ====
section
/-! DEFINITION. What every state of a run satisfies: the invariants of spec/10_state.md R23 and R27, and those of the model's
own representation. -/

namespace Sys2Proof.Machine

/-- Every codeword has 1 to 16 bits (R23 (1)). -/
abbrev LengthsInRange (tab : Table) : Prop :=
  ∀ e ∈ tab, minCodeLen ≤ e.code.length ∧ e.code.length ≤ maxCodeLen

/-- No codeword is a prefix of another, and none appears twice (R23 (2)). -/
abbrev PrefixFree (tab : Table) : Prop :=
  tab.Pairwise fun a b => isPrefix a.code b.code = false ∧ isPrefix b.code a.code = false

/-- The canonical form: codewords rising (DESIGN CHOICE, log 7). -/
abbrev Rising (tab : Table) : Prop := tab.Pairwise fun a b => codeLt a.code b.code = true

/-- A table at a command boundary (R23), in canonical form. -/
abbrev TableWf (maxEntries : Nat) (tab : Table) : Prop :=
  LengthsInRange tab ∧ PrefixFree tab ∧ Rising tab ∧ entries tab ≤ maxEntries

/-- The table store: as many tables as the build has (R22), each well-formed (R23). -/
abbrev TablesWf (s : State) : Prop :=
  s.tables.length = s.cfg.tableCount ∧ ∀ tab ∈ s.tables, TableWf s.cfg.maxEntries tab

/-- `CAUSE` holds 0 exactly when `FAULT` is 0 (R27), and a fault writes codes 1 to 9 only (R129). -/
abbrev StatusWf (s : State) : Prop :=
  (s.cause = 0 ↔ s.fault = false) ∧ s.cause.toNat ≤ 9

/-- The result registers: at most 16 bits taken (R29), no value without `OK` (R30), and a recorded fault is what the last
command met (R31, R126). -/
abbrev ResultWf (s : State) : Prop :=
  s.resNbits.toNat ≤ 16 ∧ (s.resStatus ≠ .ok → s.resValue = 0) ∧
    (s.fault = true ↔ s.resStatus = .fault ∨ s.resStatus = .rejected)

/-- A command that waits for a token (R42): the block is not faulted, a walk stands at an internal node of an existing table,
a raw read lacks a bit of its width. -/
def inFlightWf (s : State) : Bool :=
  match s.inFlight with
  | none => true
  | some (.walk t p) =>
    !s.fault && decide (t.toNat < s.cfg.tableCount) && isInternal (s.table t) p
  | some (.raw _ n taken value) =>
    !s.fault && decide (taken < n) && decide (n ≤ maxRawLen) && decide (value < 2 ^ taken)

/-- The invariant of the block. -/
structure Inv (s : State) : Prop where
  config   : s.cfg.Conforming
  tables   : TablesWf s
  status   : StatusWf s
  result   : ResultWf s
  inFlight : inFlightWf s = true

/-- No command is in progress: the block takes the next word (R156). -/
abbrev Idle (s : State) : Prop := s.inFlight = none

/-- Idle and not faulted: the next command is carried out (R126). -/
abbrev Ready (s : State) : Prop := s.inFlight = none ∧ s.fault = false

/-- The tokens that carry a bit string (R47, R49). -/
def bitTokens (bs : Bits) : List Token := bs.map Token.ofBit

/-- How many bits the command in progress has taken (R42). -/
def bitsInFlight (s : State) : Nat :=
  match s.inFlight with
  | none => 0
  | some c => c.bitsTaken

end Sys2Proof.Machine
end

