-- ==== Sys2Proof/Certificates/Slice0/Obligations.lean ====
section
/-! DEFINITION. The statements for the provers. Each says which rule of spec/ it formalises. A next state written as
`{ s with … }` is a whole statement of the frame: what it does not name is unchanged. -/

open Sys2Proof Sys2Proof.Machine

/-! ### Reset and the invariant -/

/-- R45: what power-on leaves, for every configuration: every table empty, every register 0, no command in progress. -/
def Obligations.ResetLeavesTheValuesOfR45 : Prop :=
  ∀ (cfg : Config) (t : BitVec 4) (c : Bits),
    let s := State.resetWith cfg
    lookup (s.table t) c = none ∧ entries (s.table t) = 0 ∧ tblcntWord s t = 0 ∧
      s.fault = false ∧ s.cause = 0 ∧ s.resStatus = .ok ∧ s.resNbits = 0 ∧ s.resValue = 0 ∧ s.bitcnt = 0 ∧
      s.inFlight = none ∧ s.cfg = cfg ∧ irq s = false

/-- R151, R152, R141: with `rst` asserted a step puts every register and table to its reset value and abandons a command in
progress, whatever was going on. The configuration stays (R153). The input ports keep what stands on them (the model's own
choice: DESIGN CHOICE, log 5). -/
def Obligations.RstWinsAndResetsEverything : Prop :=
  ∀ s : State, s.rst = true →
    step s = .next
      { s with
        tables := List.replicate s.cfg.tableCount [], fault := false, cause := 0, resStatus := .ok, resNbits := 0,
        resValue := 0, bitcnt := 0, inFlight := none }

/-- The reset state of every conforming build satisfies the invariant. -/
def Obligations.InvHoldsAtReset : Prop :=
  ∀ cfg : Config, cfg.Conforming → Inv (State.resetWith cfg)

/-- R23, R27, R29, R30, R42: every step, from every state that satisfies the invariant, keeps it: tables stay prefix-free,
in range and in canonical form, CAUSE is 0 exactly when FAULT is, a waiting walk stands at an internal node. -/
def Obligations.EveryStepKeepsInv : Prop :=
  ∀ s t : State, Inv s → step s = .next t → Inv t

/-- No word, token or state stops the block: every step answers a next state. -/
def Obligations.EveryStepAnswersANextState : Prop :=
  ∀ s : State, ∃ t, step s = .next t

/-! ### What a step runs -/

/-- R79, R156: an idle block takes the next word of the command port, and when the word decodes the step is that command's
meaning, on the state without the word. Holds for ill-formed operands too: the meaning takes their fault. -/
def Obligations.StepRunsTheDecodedCommand : Prop :=
  ∀ (s : State) (w : CmdWord) (rest : List CmdWord) (i : Instr),
    s.rst = false → s.inFlight = none → s.cmds = w :: rest → decode w = .command i →
    step s = exec i { s with cmds := rest }

/-- R54, R150 (the wait as an unchanged state is the model's, DEDUCED, log 3): with no word on the command port an idle
block does nothing, and with no token a waiting command does nothing. -/
def Obligations.WaitingChangesNothing : Prop :=
  ∀ s : State, s.rst = false →
    (s.inFlight = none → s.cmds = [] → step s = .next s) ∧
    (s.inFlight ≠ none → s.tokens = [] → step s = .next s)

/-- R156: a meaning called while a command is in progress stops (the model's own fault, DESIGN CHOICE, log 8). -/
def Obligations.NoCommandIsTakenWhileOneIsInProgress : Prop :=
  ∀ (i : Instr) (s : State), s.inFlight ≠ none → exec i s = .fault .commandInProgress

/-- R130: a word whose OP is not 0x01 to 0x06 raises ILLEGAL_OP, whatever its other bits, with no bit taken and no table
changed. -/
def Obligations.IllegalOpRaisesItsFault : Prop :=
  ∀ (s : State) (w : CmdWord) (rest : List CmdWord),
    s.rst = false → Ready s → s.cmds = w :: rest →
    ((opField w).toNat = 0 ∨ 7 ≤ (opField w).toNat) →
    step s = .next
      { s with cmds := rest, fault := true, cause := 1, resStatus := .fault, resNbits := 0, resValue := 0 }

/-- R131: a legal OP with a reserved field, or a field R72 marks 0, that is not zero raises RESERVED_BITS, with no bit taken
and no table changed. -/
def Obligations.ReservedBitsRaiseTheirFault : Prop :=
  ∀ (s : State) (w : CmdWord) (rest : List CmdWord) (op : Op),
    s.rst = false → Ready s → s.cmds = w :: rest → opField w = op.code →
    (rsv1Field w ≠ 0 ∨ rsv2Field w ≠ 0 ∨ (op.uses.tbl = false ∧ tblField w ≠ 0) ∨
      (op.uses.len = false ∧ lenField w ≠ 0) ∨ (op.uses.sym = false ∧ symField w ≠ 0) ∨
      (op.uses.code = false ∧ codeField w ≠ 0)) →
    step s = .next
      { s with cmds := rest, fault := true, cause := 2, resStatus := .fault, resNbits := 0, resValue := 0 }

/-- R126: while faulted every word but the exact ACK word is rejected with no other effect, and that word is carried out. -/
def Obligations.FaultedBlockRejectsAllButAck : Prop :=
  ∀ (s : State) (w : CmdWord) (rest : List CmdWord),
    s.rst = false → s.inFlight = none → s.fault = true → s.cmds = w :: rest →
    (w ≠ 0x0600000000000000 →
      step s = .next { s with cmds := rest, resStatus := .rejected, resNbits := 0, resValue := 0 }) ∧
    (w = 0x0600000000000000 →
      step s = .next
        { s with cmds := rest, fault := false, cause := 0, resStatus := .ok, resNbits := 0, resValue := 0 })

/-! ### Encoding -/

/-- R72, R80: decoding the word of any command gives the command back, every operand at every value its field admits. -/
def Obligations.DecodeOfEncodeIsTheCommand : Prop :=
  ∀ i : Instr, decode (encode i) = .command i

/-- R80: exactly one word spells each command: a word that decodes to a command is that command's word. -/
def Obligations.OneWordSpellsEachCommand : Prop :=
  ∀ (w : CmdWord) (i : Instr), decode w = .command i → encode i = w

/-- R71: the word as a formula of its fields. -/
def Obligations.WordIsTheFormulaOfItsFields : Prop :=
  ∀ (op : BitVec 8) (tbl rsv1 : BitVec 4) (len sym : BitVec 8) (rsv2 code : BitVec 16),
    (packWord op tbl rsv1 len sym rsv2 code).toNat =
      op.toNat * 2 ^ 56 + tbl.toNat * 2 ^ 52 + rsv1.toNat * 2 ^ 48 + len.toNat * 2 ^ 40 + sym.toNat * 2 ^ 32 +
        rsv2.toNat * 2 ^ 16 + code.toNat

/-- R83: a word is one of a command's words exactly when it has the command's match under its mask. -/
def Obligations.DecodesExactlyWhenItHasTheShape : Prop :=
  ∀ (w : CmdWord) (op : Op), (∃ i, decode w = .command i ∧ i.op = op) ↔ hasShape op w = true

/-- R59: a stored word is eight bytes, bits 63:56 in byte 0 and so on down to bits 7:0 in byte 7, and reads back as itself, the
bytes after it left over. -/
def Obligations.StoredWordIsBigEndian : Prop :=
  ∀ (w : CmdWord) (rest : List Byte),
    (∀ k, k < 8 → (bytesOfWord w)[k]? = some (w.extractLsb' (56 - 8 * k) 8)) ∧ (bytesOfWord w).length = 8 ∧
      wordOfBytes (bytesOfWord w ++ rest) = some (w, rest)

/-- Words of spec/ decode to the commands the spec writes beside them (R84, R89, R92, R101, R113, R118, R123). -/
def Obligations.WordsOfTheSpecDecode : Prop :=
  decode 0x0120000000000000 = .command (.clr 2) ∧
  decode 0x0200020000000000 = .command (.ins 0 2 0 0) ∧
  decode 0x0300000000000000 = .command (.dec 0) ∧
  decode 0x0400050000000000 = .command (.rcv 5) ∧
  decode 0x0500030000000000 = .command (.rcvx 3) ∧
  decode 0x0600000000000000 = .command .ack

/-! ### CLR and INS -/

/-- R89: CLR empties its table and no other, takes no bit, and completes OK with value 0. -/
def Obligations.ClrEmptiesItsTable : Prop :=
  ∀ (s : State) (t : BitVec 4), Ready s → t.toNat < s.cfg.tableCount →
    ∃ u, exec (.clr t) s = .next u ∧
      u = { s with tables := u.tables, resStatus := .ok, resNbits := 0, resValue := 0 } ∧
      (∀ c, lookup (u.table t) c = none) ∧ entries (u.table t) = 0 ∧ u.tables.length = s.tables.length ∧
      (∀ t', t' ≠ t → u.table t' = s.table t')

/-- R92: an INS whose operands are in range, whose codeword conflicts with none of its table and whose table has room adds
exactly that codeword with its symbol, changes no other table, takes no bit, and completes OK with value 0. -/
def Obligations.InsAddsItsCodeword : Prop :=
  ∀ (s : State) (t : BitVec 4) (len : BitVec 8) (code : BitVec 16) (sym : Symbol),
    Ready s → s.tables.length = s.cfg.tableCount → (Instr.ins t len code sym).wellFormed s.cfg = true →
    (∀ e ∈ s.table t, ¬ e.code <+: codeword len code ∧ ¬ codeword len code <+: e.code) →
    entries (s.table t) < s.cfg.maxEntries →
    ∃ u, exec (.ins t len code sym) s = .next u ∧
      u = { s with tables := u.tables, resStatus := .ok, resNbits := 0, resValue := 0 } ∧
      lookup (u.table t) (codeword len code) = some sym ∧
      (∀ c, c ≠ codeword len code → lookup (u.table t) c = lookup (s.table t) c) ∧
      entries (u.table t) = entries (s.table t) + 1 ∧ u.tables.length = s.tables.length ∧
      (∀ t', t' ≠ t → u.table t' = s.table t')

/-- R10, R77: the codeword of an INS has LEN bits, and is CODE most significant bit first. -/
def Obligations.CodewordSpellsItsCodeValue : Prop :=
  ∀ (len : BitVec 8) (code : BitVec 16), code.toNat < 2 ^ len.toNat →
    (codeword len code).length = len.toNat ∧ valueOf (codeword len code) = code.toNat

/-- R93: a codeword that equals, extends or begins one of the table raises CODE_CONFLICT and leaves every table as it was. -/
def Obligations.InsConflictRaisesCodeConflict : Prop :=
  ∀ (s : State) (t : BitVec 4) (len : BitVec 8) (code : BitVec 16) (sym : Symbol) (e : Entry),
    Ready s → (Instr.ins t len code sym).wellFormed s.cfg = true → e ∈ s.table t →
    (e.code = codeword len code ∨ e.code <+: codeword len code ∨ codeword len code <+: e.code) →
    exec (.ins t len code sym) s = .next
      { s with fault := true, cause := 6, resStatus := .fault, resNbits := 0, resValue := 0 }

/-- R96: an INS of a codeword that does not conflict into a full table raises TABLE_FULL and inserts nothing. -/
def Obligations.InsIntoFullTableRaisesTableFull : Prop :=
  ∀ (s : State) (t : BitVec 4) (len : BitVec 8) (code : BitVec 16) (sym : Symbol),
    Ready s → (Instr.ins t len code sym).wellFormed s.cfg = true →
    (∀ e ∈ s.table t, ¬ e.code <+: codeword len code ∧ ¬ codeword len code <+: e.code) →
    entries (s.table t) = s.cfg.maxEntries →
    exec (.ins t len code sym) s = .next
      { s with fault := true, cause := 7, resStatus := .fault, resNbits := 0, resValue := 0 }

/-- R132: a CLR, INS or DEC whose TBL is not below TABLE_COUNT raises BAD_TABLE, whatever its other operands, with no bit
taken and no table changed. -/
def Obligations.BadTableRaisesItsFault : Prop :=
  ∀ (s : State) (t : BitVec 4) (len : BitVec 8) (code : BitVec 16) (sym : Symbol) (i : Instr),
    Ready s → s.cfg.tableCount ≤ t.toNat → (i = .clr t ∨ i = .ins t len code sym ∨ i = .dec t) →
    exec i s = .next { s with fault := true, cause := 3, resStatus := .fault, resNbits := 0, resValue := 0 }

/-- R133: an INS with LEN outside 1..16, or an RCV or RCVX with LEN above 16, raises BAD_LENGTH with no bit taken and no table
changed (the INS when its table exists: R140 puts BAD_TABLE first). -/
def Obligations.BadLengthRaisesItsFault : Prop :=
  ∀ (s : State) (t : BitVec 4) (len : BitVec 8) (code : BitVec 16) (sym : Symbol) (i : Instr),
    Ready s →
    ((i = .ins t len code sym ∧ t.toNat < s.cfg.tableCount ∧ (len.toNat = 0 ∨ 16 < len.toNat)) ∨
      (i = .rcv len ∧ 16 < len.toNat) ∨ (i = .rcvx len ∧ 16 < len.toNat)) →
    exec i s = .next { s with fault := true, cause := 4, resStatus := .fault, resNbits := 0, resValue := 0 }

/-- R134: an INS whose CODE is not below 2^LEN raises BAD_CODE with no bit taken and no table changed (when its table and
its length are in range: R140 puts those faults first). -/
def Obligations.BadCodeRaisesItsFault : Prop :=
  ∀ (s : State) (t : BitVec 4) (len : BitVec 8) (code : BitVec 16) (sym : Symbol),
    Ready s → t.toNat < s.cfg.tableCount → 1 ≤ len.toNat → len.toNat ≤ 16 → 2 ^ len.toNat ≤ code.toNat →
    exec (.ins t len code sym) s = .next
      { s with fault := true, cause := 5, resStatus := .fault, resNbits := 0, resValue := 0 }

/-- R97, R99: a faulted INS or CLR leaves every table as it was, and no INS or CLR takes a bit or touches BITCNT, another
table, the configuration or the command port. -/
def Obligations.TableLoadFrame : Prop :=
  ∀ (i : Instr) (t : BitVec 4) (len : BitVec 8) (code : BitVec 16) (sym : Symbol) (s u : State),
    (i = .clr t ∨ i = .ins t len code sym) → exec i s = .next u →
    (u.resStatus ≠ .ok → u.tables = s.tables) ∧ (∀ t', t' ≠ t → u.table t' = s.table t') ∧
      u.bitcnt = s.bitcnt ∧ u.tokens = s.tokens ∧ u.inFlight = s.inFlight ∧
      u.cfg = s.cfg ∧ u.cmds = s.cmds ∧ u.rst = s.rst ∧
      (u.resStatus ≠ .fault → u.fault = s.fault ∧ u.cause = s.cause)

/-! ### DEC -/

/-- R104: when the bits taken spell a codeword of the table, DEC completes OK with its symbol and its length, having taken
exactly those bits. -/
def Obligations.DecReturnsTheSymbolOfItsCodeword : Prop :=
  ∀ (s : State) (t : BitVec 4) (e : Entry) (rest : List Token),
    Ready s → t.toNat < s.cfg.tableCount → TableWf s.cfg.maxEntries (s.table t) → e ∈ s.table t →
    s.tokens = bitTokens e.code ++ rest →
    exec (.dec t) s = .next
      { s with
        resStatus := .ok, resNbits := BitVec.ofNat 5 e.code.length, resValue := e.sym.setWidth 32,
        bitcnt := s.bitcnt + BitVec.ofNat 32 e.code.length, tokens := rest }

/-- R105: a NONE before a leaf ends DEC with status NONE, value 0 and the count of the bits taken, which are lost; STATUS does
not change and no command is in progress, so the next DEC starts at the root. -/
def Obligations.DecEndsWithNoneAtEndOfStream : Prop :=
  ∀ (s : State) (t : BitVec 4) (p : Bits) (e : Entry) (rest : List Token),
    Ready s → t.toNat < s.cfg.tableCount → TableWf s.cfg.maxEntries (s.table t) →
    e ∈ s.table t → p <+: e.code → p ≠ e.code → s.tokens = bitTokens p ++ .eos :: rest →
    exec (.dec t) s = .next
      { s with
        resStatus := .none, resNbits := BitVec.ofNat 5 p.length, resValue := 0,
        bitcnt := s.bitcnt + BitVec.ofNat 32 p.length, tokens := rest }

/-- R106: when the bit after an internal node leads to no node, DEC raises INVALID_CODE; all bits taken, the last included, stay
consumed and are counted. -/
def Obligations.DecOffTheTreeRaisesInvalidCode : Prop :=
  ∀ (s : State) (t : BitVec 4) (p : Bits) (b : Bool) (e : Entry) (rest : List Token),
    Ready s → t.toNat < s.cfg.tableCount → TableWf s.cfg.maxEntries (s.table t) →
    e ∈ s.table t → p <+: e.code → p ≠ e.code → (∀ e' ∈ s.table t, ¬ (p ++ [b]) <+: e'.code) →
    s.tokens = bitTokens (p ++ [b]) ++ rest →
    exec (.dec t) s = .next
      { s with
        fault := true, cause := 9, resStatus := .fault, resNbits := BitVec.ofNat 5 (p.length + 1), resValue := 0,
        bitcnt := s.bitcnt + BitVec.ofNat 32 (p.length + 1), tokens := rest }

/-- R107: DEC on an empty table raises EMPTY_TABLE before it requests a bit. -/
def Obligations.DecOnEmptyTableRaisesEmptyTable : Prop :=
  ∀ (s : State) (t : BitVec 4), Ready s → t.toNat < s.cfg.tableCount → entries (s.table t) = 0 →
    exec (.dec t) s = .next
      { s with fault := true, cause := 8, resStatus := .fault, resNbits := 0, resValue := 0 }

/-- R42, R54: when the bit source has answered only part of a walk, DEC waits at the node it has reached, BITCNT counted so
far and every other register as it was. -/
def Obligations.DecWaitsAtAnInternalNode : Prop :=
  ∀ (s : State) (t : BitVec 4) (p : Bits) (e : Entry),
    Ready s → t.toNat < s.cfg.tableCount → TableWf s.cfg.maxEntries (s.table t) →
    e ∈ s.table t → p <+: e.code → p ≠ e.code → s.tokens = bitTokens p →
    exec (.dec t) s = .next
      { s with
        inFlight := some (.walk t p), bitcnt := s.bitcnt + BitVec.ofNat 32 p.length, tokens := [] }

/-- R108 and Q1 of 95_test_vectors: a DEC takes at most 16 bits, does not wait once 16 tokens are there, and ends in OK, NONE or one
of the faults BAD_TABLE, EMPTY_TABLE, INVALID_CODE. -/
def Obligations.DecIsBoundedAndEndsByName : Prop :=
  ∀ (s u : State) (t : BitVec 4), Inv s → Ready s → exec (.dec t) s = .next u →
    (∃ k, k ≤ 16 ∧ u.bitcnt = s.bitcnt + BitVec.ofNat 32 k) ∧
    (16 ≤ s.tokens.length → u.inFlight = none) ∧
    (u.inFlight = none →
      u.resNbits.toNat ≤ 16 ∧
      ((u.resStatus = .ok ∧ u.fault = false) ∨ (u.resStatus = .none ∧ u.fault = false) ∨
        (u.resStatus = .fault ∧ u.fault = true ∧ (u.cause = 3 ∨ u.cause = 8 ∨ u.cause = 9))))

/-- R110: a DEC depends on its table and its tokens alone: two ready blocks of one configuration that agree on them get the same
result, whatever their other tables and registers hold. -/
def Obligations.DecDependsOnItsTableAndTokensOnly : Prop :=
  ∀ (s s' u u' : State) (t : BitVec 4),
    Ready s → Ready s' → s.cfg = s'.cfg → s.table t = s'.table t → s.tokens = s'.tokens →
    exec (.dec t) s = .next u → exec (.dec t) s' = .next u' →
    u.inFlight = u'.inFlight ∧ u.tokens = u'.tokens ∧ u.fault = u'.fault ∧
      u.bitcnt - s.bitcnt = u'.bitcnt - s'.bitcnt ∧
      (u.inFlight = none → u.resStatus = u'.resStatus ∧ u.resNbits = u'.resNbits ∧ u.resValue = u'.resValue) ∧
      (u.fault = true → u.cause = u'.cause)

/-! ### RCV and RCVX -/

/-- R113: RCV n takes the next n bits and returns their value, zero-extended. With n = 0 it takes none (R114). -/
def Obligations.RcvReturnsTheValueOfItsBits : Prop :=
  ∀ (s : State) (n : BitVec 8) (bs : Bits) (rest : List Token),
    Ready s → n.toNat ≤ 16 → bs.length = n.toNat → s.tokens = bitTokens bs ++ rest →
    exec (.rcv n) s = .next
      { s with
        resStatus := .ok, resNbits := BitVec.ofNat 5 n.toNat, resValue := BitVec.ofNat 32 (valueOf bs),
        bitcnt := s.bitcnt + BitVec.ofNat 32 n.toNat, tokens := rest }

/-- R118: RCVX n takes the next n bits and returns their value extended by EXTEND, as a two's-complement pattern. -/
def Obligations.RcvxReturnsTheExtendedValueOfItsBits : Prop :=
  ∀ (s : State) (n : BitVec 8) (bs : Bits) (rest : List Token),
    Ready s → n.toNat ≤ 16 → bs.length = n.toNat → s.tokens = bitTokens bs ++ rest →
    ∃ u, exec (.rcvx n) s = .next u ∧
      u = { s with
        resStatus := .ok, resNbits := BitVec.ofNat 5 n.toNat, resValue := u.resValue,
        bitcnt := s.bitcnt + BitVec.ofNat 32 n.toNat, tokens := rest } ∧
      u.resValue.toInt = extend (valueOf bs) n.toNat

/-- R115: the i-th bit taken, from 1, has weight 2^(n-i). -/
def Obligations.FirstBitTakenWeighsMost : Prop :=
  ∀ bs : Bits, valueOf bs = ∑ i ∈ Finset.range bs.length, (bs.getD i false).toNat * 2 ^ (bs.length - 1 - i)

/-- R114: a raw read of width 0 takes no bit, makes no request, and completes OK with value 0, whatever the bit source has. -/
def Obligations.RawReadOfWidthZeroTakesNoBit : Prop :=
  ∀ (s : State) (i : Instr), Ready s → (i = .rcv 0 ∨ i = .rcvx 0) →
    exec i s = .next { s with resStatus := .ok, resNbits := 0, resValue := 0 }

/-- R116: a NONE before n bits ends a raw read with status NONE, value 0 and the count of the bits taken, which stay consumed and
counted; not a fault. -/
def Obligations.RawReadEndsWithNoneAtEndOfStream : Prop :=
  ∀ (s : State) (n : BitVec 8) (i : Instr) (bs : Bits) (rest : List Token),
    Ready s → n.toNat ≤ 16 → (i = .rcv n ∨ i = .rcvx n) → bs.length < n.toNat →
    s.tokens = bitTokens bs ++ .eos :: rest →
    exec i s = .next
      { s with
        resStatus := .none, resNbits := BitVec.ofNat 5 bs.length, resValue := 0,
        bitcnt := s.bitcnt + BitVec.ofNat 32 bs.length, tokens := rest }

/-- R42, R54: a raw read whose bits have not all come waits with its partial value, BITCNT counted so far. -/
def Obligations.RawReadWaitsWithItsPartialValue : Prop :=
  ∀ (s : State) (n : BitVec 8) (ext : Bool) (bs : Bits),
    Ready s → n.toNat ≤ 16 → bs.length < n.toNat → s.tokens = bitTokens bs →
    exec (if ext then .rcvx n else .rcv n) s = .next
      { s with
        inFlight := some (.raw ext n.toNat bs.length (valueOf bs)),
        bitcnt := s.bitcnt + BitVec.ofNat 32 bs.length, tokens := [] }

/-- R117: an OK result of RCV n is below 2^n. -/
def Obligations.RcvResultIsBelowTwoToTheWidth : Prop :=
  ∀ (s u : State) (n : BitVec 8), exec (.rcv n) s = .next u → u.inFlight = none →
    u.resStatus = .ok → u.resValue.toNat < 2 ^ n.toNat

/-- R120: EXTEND at the edges of its range, and the range itself. -/
def Obligations.ExtendHasTheValuesOfR120 : Prop :=
  ∀ n : Nat, 1 ≤ n → n ≤ 16 →
    extend 0 n = -(2 ^ n - 1) ∧ extend (2 ^ (n - 1) - 1) n = -2 ^ (n - 1) ∧
      extend (2 ^ (n - 1)) n = 2 ^ (n - 1) ∧ extend (2 ^ n - 1) n = 2 ^ n - 1 ∧
      ∀ raw : Nat, raw < 2 ^ n →
        (-(2 ^ n - 1) ≤ extend raw n ∧ extend raw n ≤ -2 ^ (n - 1)) ∨
          (2 ^ (n - 1) ≤ extend raw n ∧ extend raw n ≤ 2 ^ n - 1)

/-- R120, R121: an OK result of RCVX n with n at least 1 is a signed value of magnitude 2^(n-1) to 2^n - 1, so never 0, and its
bits 31:17 are copies of its sign. -/
def Obligations.RcvxResultIsInItsRange : Prop :=
  ∀ (s u : State) (n : BitVec 8), 1 ≤ n.toNat → exec (.rcvx n) s = .next u →
    u.inFlight = none → u.resStatus = .ok →
    2 ^ (n.toNat - 1) ≤ u.resValue.toInt.natAbs ∧ u.resValue.toInt.natAbs ≤ 2 ^ n.toNat - 1 ∧
      (∀ j, 17 ≤ j → j < 32 → u.resValue.getLsbD j = u.resValue.msb)

/-- R110, R122 and the frame of the three commands that read bits: they change no table, configuration, command port or pin; the
tokens they leave are the rest of those offered; STATUS changes only with a fault. -/
def Obligations.BitReadFrame : Prop :=
  ∀ (i : Instr) (t : BitVec 4) (n : BitVec 8) (s u : State),
    (i = .dec t ∨ i = .rcv n ∨ i = .rcvx n) → exec i s = .next u →
    u.tables = s.tables ∧ u.cfg = s.cfg ∧ u.cmds = s.cmds ∧ u.rst = s.rst ∧ u.tokens <:+ s.tokens ∧
      (u.resStatus ≠ .fault → u.fault = s.fault ∧ u.cause = s.cause)

/-! ### ACK -/

/-- R123, R124, R125: ACK clears FAULT and CAUSE and completes OK, on a faulted block or not; no table, bit count, token or
anything else changes. -/
def Obligations.AckClearsTheFaultAndNothingElse : Prop :=
  ∀ s : State, s.inFlight = none →
    exec .ack s = .next { s with fault := false, cause := 0, resStatus := .ok, resNbits := 0, resValue := 0 }

/-! ### The whole machine -/

/-- R28, R127: once set, FAULT with its CAUSE is left as it is by every step but an accepted ACK word and reset, and such a step
changes no table, bit count or token. -/
def Obligations.FaultIsStickyUntilAckOrReset : Prop :=
  ∀ s u : State, Inv s → s.fault = true → s.rst = false → s.cmds.head? ≠ some ackWord → step s = .next u →
    u.fault = true ∧ u.cause = s.cause ∧ u.tables = s.tables ∧ u.bitcnt = s.bitcnt ∧ u.tokens = s.tokens

/-- R34: BITCNT, read at 0x0C, goes up by one, modulo 2^32, for each BIT0 or BIT1 token a step takes, not for a NONE, and changes
in no other way but reset, which leaves it 0. The tokens taken are the first of those offered. -/
def Obligations.BitcntCountsTheBitsTaken : Prop :=
  ∀ s u : State, step s = .next u →
    readReg u 0x0C = u.bitcnt ∧ (s.rst = true → u.bitcnt = 0) ∧
    (s.rst = false → ∃ k, k ≤ s.tokens.length ∧ u.tokens = s.tokens.drop k ∧
      u.bitcnt = s.bitcnt + BitVec.ofNat 32 ((s.tokens.take k).filter (· ≠ Token.eos)).length)

/-- R53: a NONE token is the last one its command takes: the command ends with status NONE. -/
def Obligations.NoneEndsTheCommandAtOnce : Prop :=
  ∀ s u : State, s.rst = false → step s = .next u →
    ∃ k, u.tokens = s.tokens.drop k ∧
      ∀ j, j < k → s.tokens[j]? = some Token.eos →
        j + 1 = k ∧ u.inFlight = none ∧ u.resStatus = .none ∧ u.resValue = 0 ∧
          u.fault = s.fault ∧ u.cause = s.cause

/-- R112: whatever a command's outcome, BITCNT has gone up by the bits it took: by RES_NBITS when the command has completed, by the
bits it holds while it waits. -/
def Obligations.BitAccounting : Prop :=
  ∀ s u : State, Inv s → s.rst = false → (s.inFlight ≠ none ∨ s.cmds ≠ []) → step s = .next u →
    u.bitcnt + BitVec.ofNat 32 (bitsInFlight s) =
      s.bitcnt + BitVec.ofNat 32 (if u.inFlight = none then u.resNbits.toNat else bitsInFlight u)

/-- R37, R31: a command that still waits after a step has changed no register but BITCNT. R156: a step that begins with a command
in progress takes no word from the command port, whether or not the command completes in it. -/
def Obligations.WaitingCommandShowsBitcntOnly : Prop :=
  ∀ s u : State, s.rst = false → step s = .next u →
    (u.inFlight ≠ none →
      u.tables = s.tables ∧ u.fault = s.fault ∧ u.cause = s.cause ∧ u.resStatus = s.resStatus ∧
        u.resNbits = s.resNbits ∧ u.resValue = s.resValue ∧ u.tokens = []) ∧
    (s.inFlight ≠ none → u.cmds = s.cmds)

/-- The model's one-step commands lose nothing (DEDUCED, log 4): a command that waits and then gets the rest of its tokens
ends as it does when all of them are there at once. -/
def Obligations.ResumedCommandEndsAsIfAllTokensWereThere : Prop :=
  ∀ (i : Instr) (s t : State) (more : List Token),
    s.rst = false → exec i s = .next t → t.inFlight ≠ none →
    step { t with tokens := more } = exec i { s with tokens := s.tokens ++ more }

/-- R163: with 16 tokens offered no command waits. -/
def Obligations.SixteenTokensCompleteEveryCommand : Prop :=
  ∀ (i : Instr) (s : State), Inv s → s.inFlight = none → 16 ≤ s.tokens.length →
    ∃ u, exec i s = .next u ∧ u.inFlight = none

/-- R26: ENTRIES(t) changes only by an accepted CLR of t, to 0, and by an accepted INS into t that completes OK, by one. Accepted:
no command is in progress (R156), the block is not faulted (R126), and the word is taken from the command port. -/
def Obligations.EntriesChangeByClrAndInsOnly : Prop :=
  ∀ (s u : State) (t : BitVec 4), s.rst = false → step s = .next u →
    entries (u.table t) = entries (s.table t) ∨
    (s.inFlight = none ∧ s.fault = false ∧ u.cmds = s.cmds.tail ∧
      ∃ w, s.cmds.head? = some w ∧ decode w = .command (.clr t) ∧ u.resStatus = .ok ∧ entries (u.table t) = 0) ∨
    (s.inFlight = none ∧ s.fault = false ∧ u.cmds = s.cmds.tail ∧
      ∃ w len code sym, s.cmds.head? = some w ∧ decode w = .command (.ins t len code sym) ∧
        u.resStatus = .ok ∧ entries (u.table t) = entries (s.table t) + 1)

/-- R43: no command and no reset changes the configuration. -/
def Obligations.ConfigurationNeverChanges : Prop :=
  ∀ s u : State, step s = .next u → u.cfg = s.cfg ∧ readReg u 0x10 = readReg s 0x10

/-! ### The read port -/

/-- R27, R146: STATUS has FAULT in bit 0, CAUSE in bits 7:4 and zeros elsewhere, and `irq` is its bit 0. -/
def Obligations.StatusWordHasItsFields : Prop :=
  ∀ s : State,
    (readReg s 0x00).toNat = s.cause.toNat * 16 + s.fault.toNat ∧ irq s = (readReg s 0x00).getLsbD 0

/-- R29, R32: RESULT has RES_STATUS in bits 1:0, RES_NBITS in bits 12:8 and zeros elsewhere. -/
def Obligations.ResultWordHasItsFields : Prop :=
  ∀ s : State,
    (readReg s 0x04).toNat = s.resNbits.toNat * 256 +
      (match s.resStatus with | .ok => 0 | .none => 1 | .fault => 2 | .rejected => 3)

/-- R35, R36: the read map: address bits 1:0 are ignored, CONFIG holds the parameters, TBLCNT the entry counts, and the reserved
addresses read 0. -/
def Obligations.ReadMapIsThatOfR36 : Prop :=
  ∀ (s : State) (a : BitVec 8), s.cfg.Conforming →
    readReg s a = readReg s (a &&& 0xFC) ∧
    readReg s 0x08 = s.resValue ∧ readReg s 0x0C = s.bitcnt ∧
    (readReg s 0x10).toNat = s.cfg.maxEntries * 2 ^ 16 + s.cfg.tableCount ∧
    (0x14 ≤ a.toNat → a.toNat < 0x40 → readReg s a = 0) ∧ (0x80 ≤ a.toNat → readReg s a = 0) ∧
    (∀ t : BitVec 4, readReg s (BitVec.ofNat 8 (0x40 + 4 * t.toNat)) =
      if t.toNat < s.cfg.tableCount then BitVec.ofNat 32 (entries (s.table t)) else 0)

/-! ### Tables as maps and as trees, loads, the reference source -/

/-- R25, on the canonical form (DESIGN CHOICE, log 7): two tables with the same map are the same data. -/
def Obligations.SameMapIsTheSameTable : Prop :=
  ∀ (m : Nat) (a b : Table), TableWf m a → TableWf m b → (∀ c, lookup a c = lookup b c) → a = b

/-- R24, R102: the tree view and the map agree at every node: leaf with the same symbol, internal node, bare root, or no node;
and the root is a node of every table, the empty one too. -/
def Obligations.TreeViewAgreesWithTheMap : Prop :=
  ∀ (m : Nat) (tab : Table) (p : Bits), TableWf m tab →
    (nodeAt (treeOf tab) p).found = foundInMap tab p ∧ (nodeAt (treeOf tab) []).found ≠ .missing

/-- R91: the words of a LOADTAB, sent to a ready block and carried out with no fault, leave in the table exactly the map of their
entries, and no other table changed. -/
def Obligations.LoadTabBuildsExactlyItsMap : Prop :=
  ∀ (s u : State) (t : BitVec 4) (es : List LoadEntry) (is : List Instr) (rest : List CmdWord),
    s.rst = false → Ready s → s.tables.length = s.cfg.tableCount → t.toNat < s.cfg.tableCount →
    loadTab t es = some is → s.cmds = is.map encode ++ rest →
    core.run is.length s = .next u → u.fault = false →
    u.cmds = rest ∧ (∀ t', t' ≠ t → u.table t' = s.table t') ∧
      ∀ c sym, lookup (u.table t) c = some sym ↔ ∃ e ∈ es, bitsOf e.len e.code = c ∧ e.sym = sym

/-- R49, R50, R51, R55: eight requests at a byte boundary of the reference source deliver the byte most significant bit first; a
stuffed 0x00 after 0xFF is then skipped, and anything else after 0xFF exhausts the source, which answers NONE for ever. -/
def Obligations.RefSourceDeliversAByteMsbFirst : Prop :=
  ∀ (r : RefSource) (b : Byte), r.markerFfBitsDelivered = true → r.exhausted = false → r.k = 0 → r.buf[r.i]? = some b →
    (RefSource.pops 8 r).1 =
      bitTokens [b.getLsbD 7, b.getLsbD 6, b.getLsbD 5, b.getLsbD 4, b.getLsbD 3, b.getLsbD 2, b.getLsbD 1, b.getLsbD 0] ∧
    (b ≠ 0xFF → (RefSource.pops 8 r).2 = { r with i := r.i + 1 }) ∧
    (b = 0xFF → r.buf[r.i + 1]? = some 0 → (RefSource.pops 8 r).2 = { r with i := r.i + 2 }) ∧
    (b = 0xFF → r.buf[r.i + 1]? ≠ some 0 →
      ∀ n, (RefSource.pops n (RefSource.pops 8 r).2).1 = List.replicate n Token.eos)
end

