-- ==== Sys2Proof/Laws/State.lean ====
section
/-! SUPPORT. One lemma per field per update of the state, so that no later proof unfolds a record update. -/

namespace Sys2Proof.Machine

/-! ### complete -/

@[simp] theorem complete_cfg (st : ResStatus) (v : RegWord) (n : Nat) (s : State) :
    (complete st v n s).cfg = s.cfg := rfl

@[simp] theorem complete_tables (st : ResStatus) (v : RegWord) (n : Nat) (s : State) :
    (complete st v n s).tables = s.tables := rfl

@[simp] theorem complete_fault (st : ResStatus) (v : RegWord) (n : Nat) (s : State) :
    (complete st v n s).fault = s.fault := rfl

@[simp] theorem complete_cause (st : ResStatus) (v : RegWord) (n : Nat) (s : State) :
    (complete st v n s).cause = s.cause := rfl

@[simp] theorem complete_resStatus (st : ResStatus) (v : RegWord) (n : Nat) (s : State) :
    (complete st v n s).resStatus = st := rfl

@[simp] theorem complete_resNbits (st : ResStatus) (v : RegWord) (n : Nat) (s : State) :
    (complete st v n s).resNbits = BitVec.ofNat 5 n := rfl

@[simp] theorem complete_resValue (st : ResStatus) (v : RegWord) (n : Nat) (s : State) :
    (complete st v n s).resValue = if st = .ok then v else 0 := rfl

@[simp] theorem complete_bitcnt (st : ResStatus) (v : RegWord) (n : Nat) (s : State) :
    (complete st v n s).bitcnt = s.bitcnt := rfl

@[simp] theorem complete_inFlight (st : ResStatus) (v : RegWord) (n : Nat) (s : State) :
    (complete st v n s).inFlight = none := rfl

@[simp] theorem complete_cmds (st : ResStatus) (v : RegWord) (n : Nat) (s : State) :
    (complete st v n s).cmds = s.cmds := rfl

@[simp] theorem complete_tokens (st : ResStatus) (v : RegWord) (n : Nat) (s : State) :
    (complete st v n s).tokens = s.tokens := rfl

@[simp] theorem complete_rst (st : ResStatus) (v : RegWord) (n : Nat) (s : State) :
    (complete st v n s).rst = s.rst := rfl

/-! ### raise -/

@[simp] theorem raise_cfg (c : Cause) (n : Nat) (s : State) :
    (raise c n s).cfg = s.cfg := rfl

@[simp] theorem raise_tables (c : Cause) (n : Nat) (s : State) :
    (raise c n s).tables = s.tables := rfl

@[simp] theorem raise_fault (c : Cause) (n : Nat) (s : State) :
    (raise c n s).fault = true := rfl

@[simp] theorem raise_cause (c : Cause) (n : Nat) (s : State) :
    (raise c n s).cause = c.code := rfl

@[simp] theorem raise_resStatus (c : Cause) (n : Nat) (s : State) :
    (raise c n s).resStatus = .fault := rfl

@[simp] theorem raise_resNbits (c : Cause) (n : Nat) (s : State) :
    (raise c n s).resNbits = BitVec.ofNat 5 n := rfl

@[simp] theorem raise_resValue (c : Cause) (n : Nat) (s : State) :
    (raise c n s).resValue = 0 := rfl

@[simp] theorem raise_bitcnt (c : Cause) (n : Nat) (s : State) :
    (raise c n s).bitcnt = s.bitcnt := rfl

@[simp] theorem raise_inFlight (c : Cause) (n : Nat) (s : State) :
    (raise c n s).inFlight = none := rfl

@[simp] theorem raise_cmds (c : Cause) (n : Nat) (s : State) :
    (raise c n s).cmds = s.cmds := rfl

@[simp] theorem raise_tokens (c : Cause) (n : Nat) (s : State) :
    (raise c n s).tokens = s.tokens := rfl

@[simp] theorem raise_rst (c : Cause) (n : Nat) (s : State) :
    (raise c n s).rst = s.rst := rfl

/-! ### acknowledge -/

@[simp] theorem acknowledge_cfg (s : State) :
    (acknowledge s).cfg = s.cfg := rfl

@[simp] theorem acknowledge_tables (s : State) :
    (acknowledge s).tables = s.tables := rfl

@[simp] theorem acknowledge_fault (s : State) :
    (acknowledge s).fault = false := rfl

@[simp] theorem acknowledge_cause (s : State) :
    (acknowledge s).cause = 0 := rfl

@[simp] theorem acknowledge_resStatus (s : State) :
    (acknowledge s).resStatus = .ok := rfl

@[simp] theorem acknowledge_resNbits (s : State) :
    (acknowledge s).resNbits = 0 := rfl

@[simp] theorem acknowledge_resValue (s : State) :
    (acknowledge s).resValue = 0 := rfl

@[simp] theorem acknowledge_bitcnt (s : State) :
    (acknowledge s).bitcnt = s.bitcnt := rfl

@[simp] theorem acknowledge_inFlight (s : State) :
    (acknowledge s).inFlight = none := rfl

@[simp] theorem acknowledge_cmds (s : State) :
    (acknowledge s).cmds = s.cmds := rfl

@[simp] theorem acknowledge_tokens (s : State) :
    (acknowledge s).tokens = s.tokens := rfl

@[simp] theorem acknowledge_rst (s : State) :
    (acknowledge s).rst = s.rst := rfl

/-! ### setTable -/

@[simp] theorem setTable_cfg (s : State) (t : BitVec 4) (tab : Table) :
    (s.setTable t tab).cfg = s.cfg := rfl

@[simp] theorem setTable_tables (s : State) (t : BitVec 4) (tab : Table) :
    (s.setTable t tab).tables = s.tables.set t.toNat tab := rfl

@[simp] theorem setTable_fault (s : State) (t : BitVec 4) (tab : Table) :
    (s.setTable t tab).fault = s.fault := rfl

@[simp] theorem setTable_cause (s : State) (t : BitVec 4) (tab : Table) :
    (s.setTable t tab).cause = s.cause := rfl

@[simp] theorem setTable_resStatus (s : State) (t : BitVec 4) (tab : Table) :
    (s.setTable t tab).resStatus = s.resStatus := rfl

@[simp] theorem setTable_resNbits (s : State) (t : BitVec 4) (tab : Table) :
    (s.setTable t tab).resNbits = s.resNbits := rfl

@[simp] theorem setTable_resValue (s : State) (t : BitVec 4) (tab : Table) :
    (s.setTable t tab).resValue = s.resValue := rfl

@[simp] theorem setTable_bitcnt (s : State) (t : BitVec 4) (tab : Table) :
    (s.setTable t tab).bitcnt = s.bitcnt := rfl

@[simp] theorem setTable_inFlight (s : State) (t : BitVec 4) (tab : Table) :
    (s.setTable t tab).inFlight = s.inFlight := rfl

@[simp] theorem setTable_cmds (s : State) (t : BitVec 4) (tab : Table) :
    (s.setTable t tab).cmds = s.cmds := rfl

@[simp] theorem setTable_tokens (s : State) (t : BitVec 4) (tab : Table) :
    (s.setTable t tab).tokens = s.tokens := rfl

@[simp] theorem setTable_rst (s : State) (t : BitVec 4) (tab : Table) :
    (s.setTable t tab).rst = s.rst := rfl

/-! ### countBit -/

@[simp] theorem countBit_cfg (s : State) :
    (countBit s).cfg = s.cfg := rfl

@[simp] theorem countBit_tables (s : State) :
    (countBit s).tables = s.tables := rfl

@[simp] theorem countBit_fault (s : State) :
    (countBit s).fault = s.fault := rfl

@[simp] theorem countBit_cause (s : State) :
    (countBit s).cause = s.cause := rfl

@[simp] theorem countBit_resStatus (s : State) :
    (countBit s).resStatus = s.resStatus := rfl

@[simp] theorem countBit_resNbits (s : State) :
    (countBit s).resNbits = s.resNbits := rfl

@[simp] theorem countBit_resValue (s : State) :
    (countBit s).resValue = s.resValue := rfl

@[simp] theorem countBit_bitcnt (s : State) :
    (countBit s).bitcnt = s.bitcnt + 1 := rfl

@[simp] theorem countBit_inFlight (s : State) :
    (countBit s).inFlight = s.inFlight := rfl

@[simp] theorem countBit_cmds (s : State) :
    (countBit s).cmds = s.cmds := rfl

@[simp] theorem countBit_tokens (s : State) :
    (countBit s).tokens = s.tokens := rfl

@[simp] theorem countBit_rst (s : State) :
    (countBit s).rst = s.rst := rfl

/-! ### resetBlock -/

@[simp] theorem resetBlock_cfg (s : State) :
    (resetBlock s).cfg = s.cfg := rfl

@[simp] theorem resetBlock_tables (s : State) :
    (resetBlock s).tables = List.replicate s.cfg.tableCount [] := rfl

@[simp] theorem resetBlock_fault (s : State) :
    (resetBlock s).fault = false := rfl

@[simp] theorem resetBlock_cause (s : State) :
    (resetBlock s).cause = 0 := rfl

@[simp] theorem resetBlock_resStatus (s : State) :
    (resetBlock s).resStatus = .ok := rfl

@[simp] theorem resetBlock_resNbits (s : State) :
    (resetBlock s).resNbits = 0 := rfl

@[simp] theorem resetBlock_resValue (s : State) :
    (resetBlock s).resValue = 0 := rfl

@[simp] theorem resetBlock_bitcnt (s : State) :
    (resetBlock s).bitcnt = 0 := rfl

@[simp] theorem resetBlock_inFlight (s : State) :
    (resetBlock s).inFlight = none := rfl

@[simp] theorem resetBlock_cmds (s : State) :
    (resetBlock s).cmds = s.cmds := rfl

@[simp] theorem resetBlock_tokens (s : State) :
    (resetBlock s).tokens = s.tokens := rfl

@[simp] theorem resetBlock_rst (s : State) :
    (resetBlock s).rst = s.rst := rfl

/-! ### A table of the state depends on the table store alone -/

theorem table_congr {s u : State} (h : u.tables = s.tables) (t : BitVec 4) : u.table t = s.table t := by
  simp [State.table, h]

@[simp] theorem complete_table (st : ResStatus) (v : RegWord) (n : Nat) (s : State) (t : BitVec 4) :
    (complete st v n s).table t = s.table t := rfl

@[simp] theorem raise_table (c : Cause) (n : Nat) (s : State) (t : BitVec 4) :
    (raise c n s).table t = s.table t := rfl

@[simp] theorem countBit_table (s : State) (t : BitVec 4) : (countBit s).table t = s.table t := rfl

theorem table_setTable_same (s : State) (t : BitVec 4) (tab : Table) (h : t.toNat < s.tables.length) :
    (s.setTable t tab).table t = tab := by
  simp [State.table, h]

theorem table_setTable_other (s : State) {t t' : BitVec 4} (tab : Table) (h : t' ≠ t) :
    (s.setTable t tab).table t' = s.table t' := by
  have hne : t.toNat ≠ t'.toNat := fun e => h (BitVec.eq_of_toNat_eq e.symm)
  simp [State.table, hne]

/-- `CLR` leaves an empty table even where the store is shorter than it should be. -/
theorem table_setTable_nil (s : State) (t : BitVec 4) : (s.setTable t []).table t = [] := by
  by_cases h : t.toNat < s.tables.length
  · exact table_setTable_same s t [] h
  · simp [State.table, h]

end Sys2Proof.Machine
end

