-- ==== Sys2Proof/Laws/Tables.lean ====
section
/-! SUPPORT. The laws of the table store: reading after a write, and that every change of a table keeps its canonical form. -/

namespace Sys2Proof.Machine

/-! ### Prefixes -/

theorem isPrefix_iff {p s : Bits} : isPrefix p s = true ↔ p <+: s := by
  simp [isPrefix]

theorem isPrefix_eq_false_iff {p s : Bits} : isPrefix p s = false ↔ ¬ p <+: s := by
  rw [← isPrefix_iff, Bool.not_eq_true]

theorem isProperPrefix_iff {p s : Bits} : isProperPrefix p s = true ↔ p <+: s ∧ p.length < s.length := by
  simp [isProperPrefix, isPrefix_iff]

/-- A prefix is proper exactly when it is not the whole string. -/
theorem isProperPrefix_iff_ne {p s : Bits} : isProperPrefix p s = true ↔ p <+: s ∧ p ≠ s := by
  rw [isProperPrefix_iff]
  constructor
  · rintro ⟨h, hl⟩
    exact ⟨h, fun e => by simp [e] at hl⟩
  · rintro ⟨h, hne⟩
    exact ⟨h, Nat.lt_of_le_of_ne h.length_le fun hl => hne (h.eq_of_length hl)⟩

/-! ### The order of codewords -/

theorem codeLt_irrefl : ∀ s : Bits, codeLt s s = false
  | [] => rfl
  | false :: s => codeLt_irrefl s
  | true :: s => codeLt_irrefl s

theorem codeLt_trans : ∀ {a b c : Bits}, codeLt a b = true → codeLt b c = true → codeLt a c = true
  | _, [], _, h, _ => by cases ‹Bits› <;> simp [codeLt] at h
  | _, _ :: _, [], _, h => by simp [codeLt] at h
  | [], _ :: _, _ :: _, _, _ => rfl
  | x :: a, y :: b, z :: c, h, h' => by
    cases x <;> cases y <;> cases z <;> simp only [codeLt, Bool.false_eq_true] at h h' ⊢
    · exact codeLt_trans h h'
    · exact codeLt_trans h h'

theorem codeLt_total : ∀ {a b : Bits}, a ≠ b → codeLt a b = false → codeLt b a = true
  | [], [], h, _ => absurd rfl h
  | [], _ :: _, _, h => by simp [codeLt] at h
  | _ :: _, [], _, _ => rfl
  | x :: a, y :: b, h, h' => by
    cases x <;> cases y <;> simp only [codeLt, Bool.true_eq_false] at h' ⊢
    · exact codeLt_total (fun e => h (by rw [e])) h'
    · exact codeLt_total (fun e => h (by rw [e])) h'

/-! ### Reading after a write -/

@[simp] theorem lookup_nil (c : Bits) : lookup [] c = none := rfl

/-- What a table answers after `TABLE[t](s) := sym` (R92). -/
theorem lookup_insertEntry (s : Bits) (sym : Symbol) (c : Bits) :
    ∀ tab : Table, lookup (insertEntry s sym tab) c = if s = c then some sym else lookup tab c
  | [] => by simp [insertEntry, lookup]
  | e :: rest => by
    by_cases he : e.code = s
    · by_cases hs : s = c <;> simp [insertEntry, lookup, he, hs]
    · by_cases hlt : codeLt s e.code
      · simp [insertEntry, he, hlt, lookup]
      · have ih := lookup_insertEntry s sym c rest
        by_cases hs : s = c
        · subst hs
          simpa [insertEntry, he, hlt, lookup] using ih
        · by_cases hc : e.code = c <;> simp_all [insertEntry, lookup]

theorem mem_insertEntry {s : Bits} {sym : Symbol} {e : Entry} :
    ∀ {tab : Table}, e ∈ insertEntry s sym tab → e = ⟨s, sym⟩ ∨ e ∈ tab
  | [], h => by simpa [insertEntry] using h
  | d :: rest, h => by
    simp only [insertEntry] at h
    split at h
    · rcases List.mem_cons.1 h with h | h
      · exact .inl h
      · exact .inr (List.mem_cons_of_mem _ h)
    · split at h
      · simpa using h
      · rcases List.mem_cons.1 h with h | h
        · exact .inr (by simp [h])
        · exact (mem_insertEntry h).imp_right (List.mem_cons_of_mem _)

/-- A codeword not yet in the table adds one entry (R26). -/
theorem entries_insertEntry {s : Bits} (sym : Symbol) :
    ∀ {tab : Table}, (∀ e ∈ tab, e.code ≠ s) → entries (insertEntry s sym tab) = entries tab + 1
  | [], _ => rfl
  | e :: rest, h => by
    have he : e.code ≠ s := h e (by simp)
    by_cases hlt : codeLt s e.code
    · simp [insertEntry, he, hlt, entries]
    · have ih := entries_insertEntry sym (tab := rest) fun d hd => h d (by simp [hd])
      simpa [insertEntry, he, hlt, entries] using ih

/-- A codeword that conflicts with no entry is none of them. -/
theorem code_ne_of_no_conflict {tab : Table} {s : Bits} (h : conflicts tab s = false) :
    ∀ e ∈ tab, isPrefix e.code s = false ∧ isPrefix s e.code = false := by
  intro e he
  have := List.any_eq_false.1 h e he
  simpa using this

theorem conflicts_eq_false_iff {tab : Table} {s : Bits} :
    conflicts tab s = false ↔ ∀ e ∈ tab, ¬ e.code <+: s ∧ ¬ s <+: e.code := by
  simp [conflicts, isPrefix]

theorem conflicts_eq_true_iff {tab : Table} {s : Bits} :
    conflicts tab s = true ↔ ∃ e ∈ tab, e.code <+: s ∨ s <+: e.code := by
  simp [conflicts, isPrefix]

/-! ### The canonical form is kept -/

theorem rising_insertEntry {s : Bits} (sym : Symbol) :
    ∀ {tab : Table}, Rising tab → Rising (insertEntry s sym tab)
  | [], _ => by simp [insertEntry]
  | e :: rest, h => by
    obtain ⟨he, hr⟩ := List.pairwise_cons.1 h
    simp only [insertEntry]
    split
    · rename_i heq
      exact List.pairwise_cons.2 ⟨fun d hd => heq ▸ he d hd, hr⟩
    · rename_i hne
      split
      · rename_i hlt
        refine List.pairwise_cons.2 ⟨fun d hd => ?_, h⟩
        rcases List.mem_cons.1 hd with rfl | hd
        · exact hlt
        · exact codeLt_trans hlt (he d hd)
      · rename_i hlt
        refine List.pairwise_cons.2 ⟨fun d hd => ?_, rising_insertEntry sym hr⟩
        rcases mem_insertEntry hd with rfl | hd
        · exact codeLt_total (fun h => hne h.symm) (by simpa using hlt)
        · exact he d hd

theorem prefixFree_insertEntry {s : Bits} (sym : Symbol) :
    ∀ {tab : Table}, PrefixFree tab → conflicts tab s = false → PrefixFree (insertEntry s sym tab)
  | [], _, _ => by simp [insertEntry]
  | e :: rest, h, hc => by
    obtain ⟨he, hr⟩ := List.pairwise_cons.1 h
    have hno := code_ne_of_no_conflict hc
    have hne : e.code ≠ s := fun h => by
      have := (hno e (by simp)).1
      rw [h, isPrefix_eq_false_iff] at this
      exact this List.prefix_rfl
    have hcr : conflicts rest s = false := by
      rw [conflicts_eq_false_iff] at hc ⊢
      exact fun d hd => hc d (by simp [hd])
    simp only [insertEntry, hne, if_false]
    split
    · exact List.pairwise_cons.2 ⟨fun d hd => (hno d hd).symm, h⟩
    · refine List.pairwise_cons.2 ⟨fun d hd => ?_, prefixFree_insertEntry sym hr hcr⟩
      rcases mem_insertEntry hd with rfl | hd
      · exact hno e (by simp)
      · exact he d hd

/-- The write of an `INS` keeps R23 and the canonical form. -/
theorem tableWf_insertEntry {m : Nat} {tab : Table} {s : Bits} (sym : Symbol) (h : TableWf m tab)
    (hlen : minCodeLen ≤ s.length ∧ s.length ≤ maxCodeLen) (hc : conflicts tab s = false) (hm : entries tab < m) :
    TableWf m (insertEntry s sym tab) := by
  obtain ⟨hl, hp, hr, _⟩ := h
  refine ⟨fun e he => ?_, prefixFree_insertEntry sym hp hc, rising_insertEntry sym hr, ?_⟩
  · rcases mem_insertEntry he with rfl | he
    · exact hlen
    · exact hl e he
  · rw [entries_insertEntry sym]
    · exact hm
    · intro e he h
      have := (code_ne_of_no_conflict hc e he).1
      rw [h, isPrefix_eq_false_iff] at this
      exact this List.prefix_rfl

theorem tableWf_nil (m : Nat) : TableWf m [] :=
  ⟨(fun _ he => nomatch he), List.Pairwise.nil, List.Pairwise.nil, Nat.zero_le _⟩

/-! ### What a prefix-free table answers -/

theorem mem_of_lookup {tab : Table} {c : Bits} {sym : Symbol} (h : lookup tab c = some sym) : ⟨c, sym⟩ ∈ tab := by
  induction tab with
  | nil => simp at h
  | cons e rest ih =>
    by_cases he : e.code = c
    · simp only [lookup, he, if_true, Option.some.injEq] at h
      have : e = ⟨c, sym⟩ := by cases e; simp_all
      simp [this]
    · simp only [lookup, he, if_false] at h
      exact List.mem_cons_of_mem _ (ih h)

theorem lookup_eq_none_iff {tab : Table} {c : Bits} : lookup tab c = none ↔ ∀ e ∈ tab, e.code ≠ c := by
  induction tab with
  | nil => simp
  | cons e rest ih => by_cases he : e.code = c <;> simp [lookup, he, ih]

/-- In a prefix-free table each entry is found under its own codeword (R104). -/
theorem lookup_of_mem {tab : Table} {e : Entry} (hp : PrefixFree tab) (h : e ∈ tab) : lookup tab e.code = some e.sym := by
  induction tab with
  | nil => simp at h
  | cons d rest ih =>
    obtain ⟨hd, hr⟩ := List.pairwise_cons.1 hp
    rcases List.mem_cons.1 h with rfl | h
    · simp [lookup]
    · have hne : d.code ≠ e.code := fun heq => by
        have := (hd e h).1
        rw [heq, isPrefix_eq_false_iff] at this
        exact this List.prefix_rfl
      simpa [lookup, hne] using ih hr h

theorem isInternal_iff {tab : Table} {p : Bits} : isInternal tab p = true ↔ ∃ e ∈ tab, p <+: e.code ∧ p ≠ e.code := by
  simp [isInternal, isProperPrefix_iff_ne]

/-- Two entries of a prefix-free table, one's codeword a prefix of the other's, are one entry (R23). -/
theorem eq_of_prefix {tab : Table} {d e : Entry} (hp : PrefixFree tab) (hd : d ∈ tab) (he : e ∈ tab)
    (h : d.code <+: e.code) : d = e := by
  induction tab with
  | nil => simp at hd
  | cons x rest ih =>
    obtain ⟨hx, hr⟩ := List.pairwise_cons.1 hp
    rcases List.mem_cons.1 hd with rfl | hd' <;> rcases List.mem_cons.1 he with rfl | he'
    · rfl
    · exact absurd h (isPrefix_eq_false_iff.1 (hx e he').1)
    · exact absurd h (isPrefix_eq_false_iff.1 (hx d hd').2)
    · exact ih hr hd' he'

/-- Below a codeword of a prefix-free table every node is internal, and none is a leaf (R102). -/
theorem lookup_eq_none_of_isInternal {tab : Table} {p : Bits} (hp : PrefixFree tab) (h : isInternal tab p = true) :
    lookup tab p = none := by
  obtain ⟨e, he, hpre, hne⟩ := isInternal_iff.1 h
  rw [lookup_eq_none_iff]
  rintro d hd rfl
  exact hne (by rw [eq_of_prefix hp hd he hpre])

theorem isInternal_of_append {tab : Table} {p q : Bits} (h : isInternal tab (p ++ q) = true) : isInternal tab p = true := by
  obtain ⟨e, he, hpre, hne⟩ := isInternal_iff.1 h
  refine isInternal_iff.2 ⟨e, he, (List.prefix_append p q).trans hpre, fun heq => hne ?_⟩
  exact hpre.eq_of_length_le (heq ▸ (List.prefix_append p q).length_le)

/-- A node with a child has fewer bits than the longest codeword (R108). -/
theorem length_lt_of_isInternal {tab : Table} {p : Bits} (hl : LengthsInRange tab) (h : isInternal tab p = true) :
    p.length < maxCodeLen := by
  obtain ⟨e, he, hpre, hne⟩ := isInternal_iff.1 h
  have h1 : p.length < e.code.length :=
    Nat.lt_of_le_of_ne hpre.length_le fun hlen => hne (hpre.eq_of_length hlen)
  have := (hl e he).2
  omega

/-- The root of a table that holds a code is an internal node (R103). -/
theorem isInternal_root {tab : Table} (hl : LengthsInRange tab) (h : entries tab ≠ 0) : isInternal tab [] = true := by
  match tab, h with
  | e :: rest, _ =>
    refine isInternal_iff.2 ⟨e, by simp, List.nil_prefix, fun hnil => ?_⟩
    have := (hl e (by simp)).1
    simp [← hnil, minCodeLen] at this

theorem tableWf_of_tables {s : State} (h : TablesWf s) (t : BitVec 4) : TableWf s.cfg.maxEntries (s.table t) := by
  by_cases hlt : t.toNat < s.tables.length
  · have : s.table t = s.tables[t.toNat] := by simp [State.table, hlt]
    rw [this]
    exact h.2 _ (List.getElem_mem hlt)
  · have : s.table t = [] := by simp [State.table, Nat.le_of_not_lt hlt]
    rw [this]
    exact tableWf_nil _

/-- The tables of the reset state are in canonical form. -/
theorem tablesWf_resetWith (cfg : Config) : TablesWf (State.resetWith cfg) := by
  refine ⟨List.length_replicate, fun tab h => ?_⟩
  rw [List.eq_of_mem_replicate h]
  exact tableWf_nil _

/-- Replacing a table by a well-formed one keeps the store well-formed. -/
theorem tablesWf_setTable {s : State} (h : TablesWf s) (t : BitVec 4) {tab : Table}
    (ht : TableWf s.cfg.maxEntries tab) : TablesWf (s.setTable t tab) := by
  refine ⟨by simpa [State.setTable] using h.1, fun x hx => ?_⟩
  rcases List.mem_or_eq_of_mem_set hx with hx | rfl
  · exact h.2 x hx
  · exact ht

end Sys2Proof.Machine
end

