-- ==== Sys2Proof/Laws/Ops.lean ====
section
/-! SUPPORT. What each shared operation can do, said once: accepting a command, taking a token, and serving the tokens offered. -/

namespace Sys2Proof.Machine

/-! ### Accepting a command (R126, R156) -/

theorem accept_ready {body : State → State} {s : State} (h : Ready s) : accept body s = .next (body s) := by
  simp [accept, h.1, h.2]

theorem accept_faulted {body : State → State} {s : State} (hi : s.inFlight = none) (hf : s.fault = true) :
    accept body s = .next (complete .rejected 0 0 s) := by
  simp [accept, hi, hf]

theorem accept_busy {body : State → State} {s : State} (hi : s.inFlight ≠ none) :
    accept body s = .fault .commandInProgress := by
  simp [accept, Option.isSome_iff_ne_none, hi]

/-- Everything a meaning that accepts its command can answer a next state with. -/
theorem accept_next {body : State → State} {s u : State} (h : accept body s = .next u) :
    s.inFlight = none ∧
      ((s.fault = true ∧ u = complete .rejected 0 0 s) ∨ (s.fault = false ∧ u = body s)) := by
  unfold accept at h
  split at h
  · cases h
  · rename_i hi
    refine ⟨by simpa using hi, ?_⟩
    split at h <;> cases h
    · exact .inl ⟨‹_›, rfl⟩
    · exact .inr ⟨by simpa using ‹¬ s.fault = true›, rfl⟩

theorem acceptWhileFaulted_idle {body : State → State} {s : State} (h : s.inFlight = none) :
    acceptWhileFaulted body s = .next (body s) := by
  simp [acceptWhileFaulted, h]

theorem acceptWhileFaulted_next {body : State → State} {s u : State} (h : acceptWhileFaulted body s = .next u) :
    s.inFlight = none ∧ u = body s := by
  unfold acceptWhileFaulted at h
  split at h
  · cases h
  · rename_i hi
    cases h
    exact ⟨by simpa using hi, rfl⟩

/-! ### Completing and waiting -/

@[simp] theorem bit_ofBit (b : Bool) : (Token.ofBit b).bit = some b := by cases b <;> rfl

@[simp] theorem bit_eos : Token.eos.bit = none := rfl

theorem bit_eq_none_iff {tok : Token} : tok.bit = none ↔ tok = .eos := by cases tok <;> simp [Token.bit]

@[simp] theorem takeToken_ofBit (c : InFlight) (b : Bool) (s : State) :
    takeToken c (Token.ofBit b) s = takeBit c b s := by simp [takeToken]

@[simp] theorem takeToken_eos (c : InFlight) (s : State) :
    takeToken c .eos s = complete .none 0 c.bitsTaken s := rfl

/-- The three things a walk does with a bit (R101). -/
theorem walkAt_cases (t : BitVec 4) (p : Bits) (s : State) :
    (∃ sym, lookup (s.table t) p = some sym ∧ walkAt t p s = complete .ok (sym.setWidth 32) p.length s) ∨
    (lookup (s.table t) p = none ∧ isInternal (s.table t) p = true ∧
      walkAt t p s = { s with inFlight := some (.walk t p) }) ∨
    (lookup (s.table t) p = none ∧ isInternal (s.table t) p = false ∧
      walkAt t p s = raise .invalidCode p.length s) := by
  unfold walkAt
  cases hl : lookup (s.table t) p with
  | some sym => exact .inl ⟨sym, rfl, rfl⟩
  | none => cases hi : isInternal (s.table t) p <;> simp

/-- The two things a raw read does at a count (R113). -/
theorem rawAt_cases (ext : Bool) (n taken value : Nat) (s : State) :
    (n ≤ taken ∧ rawAt ext n taken value s = complete .ok (rawResult ext n value) n s) ∨
    (taken < n ∧ rawAt ext n taken value s = { s with inFlight := some (.raw ext n taken value) }) := by
  unfold rawAt
  by_cases h : n ≤ taken
  · exact .inl ⟨h, by simp [h]⟩
  · exact .inr ⟨Nat.lt_of_not_le h, by simp [h]⟩

/-- What no token changes, whatever the command in progress does with it (R110). -/
structure SameStore (s u : State) : Prop where
  cfg    : u.cfg = s.cfg
  tables : u.tables = s.tables
  cmds   : u.cmds = s.cmds
  rst    : u.rst = s.rst

theorem SameStore.refl (s : State) : SameStore s s := ⟨rfl, rfl, rfl, rfl⟩

theorem SameStore.trans {s u v : State} (h : SameStore s u) (h' : SameStore u v) : SameStore s v :=
  ⟨h'.cfg.trans h.cfg, h'.tables.trans h.tables, h'.cmds.trans h.cmds, h'.rst.trans h.rst⟩

theorem walkAt_sameStore (t : BitVec 4) (p : Bits) (s : State) : SameStore s (walkAt t p s) := by
  rcases walkAt_cases t p s with ⟨_, _, h⟩ | ⟨_, _, h⟩ | ⟨_, _, h⟩ <;> rw [h] <;> exact ⟨rfl, rfl, rfl, rfl⟩

theorem rawAt_sameStore (ext : Bool) (n taken value : Nat) (s : State) :
    SameStore s (rawAt ext n taken value s) := by
  rcases rawAt_cases ext n taken value s with ⟨_, h⟩ | ⟨_, h⟩ <;> rw [h] <;> exact ⟨rfl, rfl, rfl, rfl⟩

theorem takeBit_sameStore (c : InFlight) (b : Bool) (s : State) : SameStore s (takeBit c b s) := by
  have hcount : SameStore s (countBit s) := ⟨rfl, rfl, rfl, rfl⟩
  cases c with
  | walk t p => exact hcount.trans (walkAt_sameStore t (p ++ [b]) _)
  | raw ext n taken value => exact hcount.trans (rawAt_sameStore ext n (taken + 1) (pushBit value b) _)

theorem takeToken_sameStore (c : InFlight) (tok : Token) (s : State) : SameStore s (takeToken c tok s) := by
  unfold takeToken
  split
  · exact takeBit_sameStore c _ s
  · exact ⟨rfl, rfl, rfl, rfl⟩

/-! ### Serving the tokens offered -/

theorem idle_or_waiting (s : State) : s.inFlight = none ∨ ∃ c, s.inFlight = some c := by
  cases s.inFlight <;> simp

@[simp] theorem serve_nil (s : State) : serve [] s = { s with tokens := [] } := rfl

theorem serve_idle {s : State} (toks : List Token) (h : s.inFlight = none) :
    serve toks s = { s with tokens := toks } := by
  cases toks <;> simp [serve, h]

theorem serve_cons {s : State} {c : InFlight} (tok : Token) (rest : List Token) (h : s.inFlight = some c) :
    serve (tok :: rest) s = serve rest (takeToken c tok s) := by
  simp [serve, h]

/-- A property that every token keeps, serving keeps. -/
theorem serve_keeps {P : State → Prop} (htok : ∀ c tok s, s.inFlight = some c → P s → P (takeToken c tok s))
    (hrest : ∀ toks s, P s → P { s with tokens := toks }) :
    ∀ (toks : List Token) (s : State), P s → P (serve toks s)
  | [], s, h => hrest [] s h
  | tok :: rest, s, h => by
    cases hi : s.inFlight with
    | none => rw [serve_idle _ hi]; exact hrest _ s h
    | some c => rw [serve_cons _ _ hi]; exact serve_keeps htok hrest rest _ (htok c tok s hi h)

theorem serve_sameStore (toks : List Token) (s : State) : SameStore s (serve toks s) :=
  serve_keeps (P := SameStore s) (fun c tok _ _ h => h.trans (takeToken_sameStore c tok _))
    (fun _ _ h => ⟨h.cfg, h.tables, h.cmds, h.rst⟩) toks s (.refl s)

/-- What a token does to a command does not depend on what else the bit source offers (R52). -/
theorem takeToken_withTokens (c : InFlight) (tok : Token) (s : State) (zs : List Token) :
    takeToken c tok { s with tokens := zs } = { takeToken c tok s with tokens := zs } := by
  unfold takeToken
  split
  · rename_i b _
    cases c with
    | walk t p =>
      have htab : (countBit { s with tokens := zs }).table t = (countBit s).table t := rfl
      simp only [takeBit, walkAt, htab]
      cases lookup ((countBit s).table t) (p ++ [b]) with
      | some sym => rfl
      | none => cases isInternal ((countBit s).table t) (p ++ [b]) <;> rfl
    | raw ext n taken value =>
      rcases rawAt_cases ext n (taken + 1) (pushBit value b) (countBit s) with ⟨h, e⟩ | ⟨h, e⟩
      · simp only [takeBit, e]; simp only [rawAt, h, if_true]; rfl
      · simp only [takeBit, e]; simp only [rawAt, Nat.not_le_of_lt h, if_false]; rfl
  · rfl

theorem serve_withTokens : ∀ (toks : List Token) (s : State) (zs : List Token),
    serve toks { s with tokens := zs } = serve toks s
  | [], _, _ => rfl
  | tok :: rest, s, zs => by
    rcases idle_or_waiting s with hi | ⟨c, hi⟩
    · rw [serve_idle _ hi, serve_idle (s := { s with tokens := zs }) _ hi]
    · rw [serve_cons _ _ hi, serve_cons (s := { s with tokens := zs }) _ _ hi, takeToken_withTokens,
        serve_withTokens]

/-- Serving two runs of tokens is serving the first, then, if the command still waits, the second (R64). -/
theorem serve_append : ∀ (xs ys : List Token) (s : State),
    serve (xs ++ ys) s =
      if (serve xs s).inFlight.isSome then serve ys (serve xs s)
      else { serve xs s with tokens := (serve xs s).tokens ++ ys }
  | [], ys, s => by
    rcases idle_or_waiting s with hi | ⟨c, hi⟩
    · simp [hi, serve_idle]
    · have h : (serve [] s).inFlight.isSome = true := by simp [hi]
      rw [if_pos h, serve_nil, List.nil_append]
      exact (serve_withTokens ys s []).symm
  | x :: xs, ys, s => by
    rcases idle_or_waiting s with hi | ⟨c, hi⟩
    · simp [hi, serve_idle]
    · rw [List.cons_append, serve_cons _ _ hi, serve_cons _ _ hi]
      exact serve_append xs ys _

/-- Bits that keep a walk inside the tree are taken one by one, and it waits where they lead (R103). -/
theorem serve_walk (t : BitVec 4) : ∀ (bs p : Bits) (rest : List Token) (s : State),
    PrefixFree (s.table t) → isInternal (s.table t) (p ++ bs) = true →
    serve (bitTokens bs ++ rest) { s with inFlight := some (.walk t p) } =
      serve rest { s with inFlight := some (.walk t (p ++ bs)), bitcnt := s.bitcnt + BitVec.ofNat 32 bs.length }
  | [], p, rest, s, _, _ => by simp [bitTokens]
  | b :: bs, p, rest, s, hp, hi => by
    have happ : p ++ b :: bs = (p ++ [b]) ++ bs := by simp
    rw [happ] at hi
    have hb := isInternal_of_append hi
    have hstep : takeBit (.walk t p) b { s with inFlight := some (.walk t p) } =
        { countBit s with inFlight := some (.walk t (p ++ [b])) } := by
      have hl := lookup_eq_none_of_isInternal hp hb
      have htab : (countBit { s with inFlight := some (.walk t p) }).table t = s.table t := rfl
      simp only [takeBit, walkAt, htab, hl, hb, if_true]
      rfl
    rw [bitTokens, List.map_cons, List.cons_append, serve_cons (c := .walk t p) _ _ rfl, takeToken_ofBit, hstep,
      ← bitTokens, serve_walk t bs (p ++ [b]) rest (countBit s) hp hi, happ]
    simp [Nat.add_comm bs.length, BitVec.ofNat_add, ← BitVec.add_assoc, countBit]

/-- Bits below the width of a raw read are taken one by one into its value (R113). -/
theorem serve_raw (ext : Bool) (n : Nat) : ∀ (bs : Bits) (taken value : Nat) (rest : List Token) (s : State),
    taken + bs.length < n →
    serve (bitTokens bs ++ rest) { s with inFlight := some (.raw ext n taken value) } =
      serve rest
        { s with
          inFlight := some (.raw ext n (taken + bs.length) (bs.foldl pushBit value))
          bitcnt := s.bitcnt + BitVec.ofNat 32 bs.length }
  | [], taken, value, rest, s, _ => by simp [bitTokens]
  | b :: bs, taken, value, rest, s, h => by
    simp only [List.length_cons] at h
    have hstep : takeBit (.raw ext n taken value) b { s with inFlight := some (.raw ext n taken value) } =
        { countBit s with inFlight := some (.raw ext n (taken + 1) (pushBit value b)) } := by
      have hlt : ¬ n ≤ taken + 1 := by omega
      simp only [takeBit, rawAt, hlt, if_false]
      rfl
    rw [bitTokens, List.map_cons, List.cons_append, serve_cons (c := .raw ext n taken value) _ _ rfl, takeToken_ofBit,
      hstep, ← bitTokens, serve_raw ext n bs (taken + 1) (pushBit value b) rest (countBit s) (by omega)]
    simp [Nat.add_comm bs.length, Nat.add_assoc, BitVec.ofNat_add, ← BitVec.add_assoc, countBit]

end Sys2Proof.Machine
end

