-- ==== Sys2Proof/Laws/Commands.lean ====
section
/-! SUPPORT. What carrying out a command can do, said once: one case per outcome, and the inversion of `exec`, of an accepted
word and of a step into these cases. Every statement about all commands is a case analysis over them. -/

namespace Sys2Proof.Machine

/-- The faults a word can raise when it is taken, before any bit (R129, R140). -/
def mayRaise : Decoded → Cause → Bool
  | .raises f, c => c == decodeCause f
  | .command (.clr _), c => c == .badTable
  | .command (.ins _ _ _ _), c =>
      c == .badTable || c == .badLength || c == .badCode || c == .codeConflict || c == .tableFull
  | .command (.dec _), c => c == .badTable || c == .emptyTable
  | .command (.rcv _), c => c == .badLength
  | .command (.rcvx _), c => c == .badLength
  | .command .ack, _ => false

/-- The ways a taken word changes the state: `Carried s d u` when a word that decodes to `d` takes `s` to `u`. -/
inductive Carried (s : State) : Decoded → State → Prop where
  /-- Rejected by a faulted block (R126). -/
  | rejected (d : Decoded) (hf : s.fault = true) (hd : d ≠ .command .ack) :
      Carried s d (complete .rejected 0 0 s)
  /-- `ACK` (R123). -/
  | acknowledged : Carried s (.command .ack) (acknowledge s)
  /-- A fault before any bit (R135). -/
  | raised (d : Decoded) (c : Cause) (hf : s.fault = false) (hc : mayRaise d c = true) :
      Carried s d (raise c 0 s)
  /-- `CLR` (R89). -/
  | cleared (t : BitVec 4) (hf : s.fault = false) (ht : t.toNat < s.cfg.tableCount) :
      Carried s (.command (.clr t)) (clearTable t s)
  /-- `INS` that inserts (R92). -/
  | inserted (t : BitVec 4) (len : BitVec 8) (code : BitVec 16) (sym : Symbol) (hf : s.fault = false)
      (hw : (Instr.ins t len code sym).wellFormed s.cfg = true)
      (hc : conflicts (s.table t) (codeword len code) = false)
      (hm : entries (s.table t) < s.cfg.maxEntries) :
      Carried s (.command (.ins t len code sym))
        (complete .ok 0 0 (s.setTable t (insertEntry (codeword len code) sym (s.table t))))
  /-- `DEC` that begins to walk (R101). -/
  | walked (t : BitVec 4) (hf : s.fault = false) (ht : t.toNat < s.cfg.tableCount)
      (hn : entries (s.table t) ≠ 0) :
      Carried s (.command (.dec t)) (serve s.tokens { s with inFlight := some (.walk t []) })
  /-- `RCV` that begins to read (R113). -/
  | read (n : BitVec 8) (hf : s.fault = false) (hn : n.toNat ≤ maxRawLen) :
      Carried s (.command (.rcv n)) (serve s.tokens (rawAt false n.toNat 0 0 s))
  /-- `RCVX` that begins to read (R118). -/
  | readExtended (n : BitVec 8) (hf : s.fault = false) (hn : n.toNat ≤ maxRawLen) :
      Carried s (.command (.rcvx n)) (serve s.tokens (rawAt true n.toNat 0 0 s))

theorem rawAt_tokens (ext : Bool) (n taken value : Nat) (s : State) :
    (rawAt ext n taken value s).tokens = s.tokens := by
  rcases rawAt_cases ext n taken value s with ⟨_, h⟩ | ⟨_, h⟩ <;> rw [h]
  rfl

theorem lacksTable_iff {s : State} {t : BitVec 4} : s.lacksTable t = true ↔ s.cfg.tableCount ≤ t.toNat := by
  simp [State.lacksTable]

theorem carried_clr {t : BitVec 4} {s : State} (hf : s.fault = false) :
    Carried s (.command (.clr t)) (if s.lacksTable t then raise .badTable 0 s else clearTable t s) := by
  split
  · exact .raised _ _ hf rfl
  · rename_i h
    rw [lacksTable_iff, Nat.not_le] at h
    exact .cleared t hf h

theorem carried_ins {t : BitVec 4} {len : BitVec 8} {code : BitVec 16} {sym : Symbol} {s : State}
    (hf : s.fault = false) :
    Carried s (.command (.ins t len code sym))
      (if s.lacksTable t then raise .badTable 0 s
      else if ¬ codeLenInRange len then raise .badLength 0 s
      else if ¬ codeFits len code then raise .badCode 0 s
      else insertCode t (codeword len code) sym s) := by
  split
  · exact .raised _ _ hf rfl
  · rename_i ht
    rw [lacksTable_iff, Nat.not_le] at ht
    split
    · exact .raised _ _ hf rfl
    · rename_i hl
      split
      · exact .raised _ _ hf rfl
      · rename_i hc
        unfold insertCode
        split
        · exact .raised _ _ hf rfl
        · rename_i hx
          split
          · exact .raised _ _ hf rfl
          · rename_i hm
            refine .inserted t len code sym hf ?_ (by simpa using hx) (by omega)
            simp only [not_not] at hl hc
            simp [Instr.wellFormed, ht, hl, hc]

theorem carried_dec {t : BitVec 4} {s : State} (hf : s.fault = false) :
    Carried s (.command (.dec t))
      (if s.lacksTable t then raise .badTable 0 s
      else if entries (s.table t) = 0 then raise .emptyTable 0 s
      else beginWalk t s) := by
  split
  · exact .raised _ _ hf rfl
  · rename_i ht
    rw [lacksTable_iff, Nat.not_le] at ht
    split
    · exact .raised _ _ hf rfl
    · rename_i hn
      exact .walked t hf ht hn

/-! ### What each meaning answers on a block that is ready -/

theorem lacksTable_eq_false {s : State} {t : BitVec 4} (h : t.toNat < s.cfg.tableCount) : s.lacksTable t = false := by
  rw [← Bool.not_eq_true, lacksTable_iff]
  omega

/-- An `INS` whose operands pass goes on to the checks of its table (R79, R92). -/
theorem exec_ins_ready {s : State} {t : BitVec 4} {len : BitVec 8} {code : BitVec 16} {sym : Symbol} (h : Ready s)
    (hw : (Instr.ins t len code sym).wellFormed s.cfg = true) :
    exec (.ins t len code sym) s = .next (insertCode t (codeword len code) sym s) := by
  simp only [Instr.wellFormed, Bool.and_eq_true, decide_eq_true_eq] at hw
  obtain ⟨⟨ht, hl⟩, hc⟩ := hw
  simp only [exec, execIns, accept_ready h, lacksTable_eq_false ht, if_false, Bool.false_eq_true]
  rw [if_neg (not_not_intro hl), if_neg (not_not_intro hc)]

/-- A `DEC` of a table that holds a code walks from the root (R101). -/
theorem exec_dec_ready {s : State} {t : BitVec 4} (h : Ready s) (ht : t.toNat < s.cfg.tableCount)
    (hn : entries (s.table t) ≠ 0) :
    exec (.dec t) s = .next (serve s.tokens { s with inFlight := some (.walk t []) }) := by
  simp only [exec, execDec, accept_ready h, lacksTable_eq_false ht, hn, if_false, Bool.false_eq_true]
  rfl

/-- A raw read whose width passes begins (R113, R118). -/
theorem exec_raw_ready {s : State} {n : BitVec 8} (ext : Bool) (h : Ready s) (hn : rawLenInRange n) :
    exec (if ext then .rcvx n else .rcv n) s = .next (serve s.tokens (rawAt ext n.toNat 0 0 s)) := by
  cases ext <;>
    simp only [exec, execRcv, execRcvx, accept_ready h, hn, not_true, if_false, if_true, Bool.false_eq_true, beginRaw,
      takeTokens, rawAt_tokens]

/-- Everything a meaning can answer a next state with. -/
theorem exec_carried {i : Instr} {s u : State} (h : exec i s = .next u) :
    s.inFlight = none ∧ Carried s (.command i) u := by
  cases i with
  | clr t =>
    simp only [exec, execClr] at h
    obtain ⟨hi, ⟨hf, rfl⟩ | ⟨hf, rfl⟩⟩ := accept_next h
    · exact ⟨hi, .rejected _ hf (by simp)⟩
    · exact ⟨hi, carried_clr hf⟩
  | ins t len code sym =>
    simp only [exec, execIns] at h
    obtain ⟨hi, ⟨hf, rfl⟩ | ⟨hf, rfl⟩⟩ := accept_next h
    · exact ⟨hi, .rejected _ hf (by simp)⟩
    · exact ⟨hi, carried_ins hf⟩
  | dec t =>
    simp only [exec, execDec] at h
    obtain ⟨hi, ⟨hf, rfl⟩ | ⟨hf, rfl⟩⟩ := accept_next h
    · exact ⟨hi, .rejected _ hf (by simp)⟩
    · exact ⟨hi, carried_dec hf⟩
  | rcv n =>
    simp only [exec, execRcv] at h
    obtain ⟨hi, ⟨hf, rfl⟩ | ⟨hf, rfl⟩⟩ := accept_next h
    · exact ⟨hi, .rejected _ hf (by simp)⟩
    · refine ⟨hi, ?_⟩
      split
      · exact .raised _ _ hf rfl
      · rename_i hn
        rw [beginRaw, takeTokens, rawAt_tokens]
        exact .read n hf (by simpa using hn)
  | rcvx n =>
    simp only [exec, execRcvx] at h
    obtain ⟨hi, ⟨hf, rfl⟩ | ⟨hf, rfl⟩⟩ := accept_next h
    · exact ⟨hi, .rejected _ hf (by simp)⟩
    · refine ⟨hi, ?_⟩
      split
      · exact .raised _ _ hf rfl
      · rename_i hn
        rw [beginRaw, takeTokens, rawAt_tokens]
        exact .readExtended n hf (by simpa using hn)
  | ack =>
    simp only [exec, execAck] at h
    obtain ⟨hi, rfl⟩ := acceptWhileFaulted_next h
    exact ⟨hi, .acknowledged⟩

/-- Everything an accepted word can do. -/
theorem acceptWord_carried {w : CmdWord} {s u : State} (h : acceptWord w s = .next u) :
    s.inFlight = none ∧ Carried s (decode w) u := by
  unfold acceptWord at h
  split at h
  · rename_i i hd
    rw [hd]
    exact exec_carried h
  · rename_i f hd
    rw [hd]
    unfold refuseWord at h
    obtain ⟨hi, ⟨hf, rfl⟩ | ⟨hf, rfl⟩⟩ := accept_next h
    · exact ⟨hi, .rejected _ hf (by simp)⟩
    · exact ⟨hi, .raised _ _ hf (by simp [mayRaise])⟩

/-- Everything a step can do: reset, go on with the command in progress, wait for a word, or take one. -/
theorem step_cases {s u : State} (h : step s = .next u) :
    (s.rst = true ∧ u = resetBlock s) ∨
    (s.rst = false ∧ (∃ c, s.inFlight = some c) ∧ u = serve s.tokens s) ∨
    (s.rst = false ∧ s.inFlight = none ∧ s.cmds = [] ∧ u = s) ∨
    (∃ w rest, s.rst = false ∧ s.inFlight = none ∧ s.cmds = w :: rest ∧
      Carried { s with cmds := rest } (decode w) u) := by
  unfold step at h
  split at h
  · rename_i hr
    cases h
    exact .inl ⟨hr, rfl⟩
  · rename_i hr
    simp only [Bool.not_eq_true] at hr
    split at h
    · rename_i hi
      cases h
      exact .inr (.inl ⟨hr, Option.isSome_iff_exists.1 hi, rfl⟩)
    · rename_i hi
      have hnone : s.inFlight = none := by simpa using hi
      rcases hc : s.cmds with _ | ⟨w, rest⟩
      · simp only [fetch, hc] at h
        cases h
        exact .inr (.inr (.inl ⟨hr, hnone, rfl, rfl⟩))
      · simp only [fetch, hc] at h
        exact .inr (.inr (.inr ⟨w, rest, hr, hnone, rfl, (acceptWord_carried h).2⟩))

/-- What a command in progress does with one token: `TokenEffect c tok s u` when it takes `s` to `u`. -/
inductive TokenEffect (c : InFlight) (s : State) : Token → State → Prop where
  /-- `NONE` ends it (R53). -/
  | ended : TokenEffect c s .eos (complete .none 0 c.bitsTaken s)
  /-- A walk reaches a leaf (R104). -/
  | leaf (b : Bool) (t : BitVec 4) (p : Bits) (sym : Symbol) (hc : c = .walk t p)
      (hl : lookup (s.table t) (p ++ [b]) = some sym) :
      TokenEffect c s (.ofBit b) (complete .ok (sym.setWidth 32) (p.length + 1) (countBit s))
  /-- A walk reaches an internal node (R103). -/
  | inner (b : Bool) (t : BitVec 4) (p : Bits) (hc : c = .walk t p) (hl : lookup (s.table t) (p ++ [b]) = none)
      (hi : isInternal (s.table t) (p ++ [b]) = true) :
      TokenEffect c s (.ofBit b) { countBit s with inFlight := some (.walk t (p ++ [b])) }
  /-- A walk leaves the tree (R106). -/
  | off (b : Bool) (t : BitVec 4) (p : Bits) (hc : c = .walk t p) (hl : lookup (s.table t) (p ++ [b]) = none)
      (hi : isInternal (s.table t) (p ++ [b]) = false) :
      TokenEffect c s (.ofBit b) (raise .invalidCode (p.length + 1) (countBit s))
  /-- A raw read has its width (R113, R118). -/
  | full (b : Bool) (ext : Bool) (n taken value : Nat) (hc : c = .raw ext n taken value) (hn : n ≤ taken + 1) :
      TokenEffect c s (.ofBit b) (complete .ok (rawResult ext n (pushBit value b)) n (countBit s))
  /-- A raw read lacks a bit. -/
  | partly (b : Bool) (ext : Bool) (n taken value : Nat) (hc : c = .raw ext n taken value) (hn : taken + 1 < n) :
      TokenEffect c s (.ofBit b)
        { countBit s with inFlight := some (.raw ext n (taken + 1) (pushBit value b)) }

theorem takeToken_effect (c : InFlight) (tok : Token) (s : State) : TokenEffect c s tok (takeToken c tok s) := by
  have bit : ∀ b : Bool, TokenEffect c s (.ofBit b) (takeToken c (.ofBit b) s) := by
    intro b
    rw [takeToken_ofBit]
    cases c with
    | walk t p =>
      rw [takeBit]
      rcases walkAt_cases t (p ++ [b]) (countBit s) with ⟨sym, hl, h⟩ | ⟨hl, hi, h⟩ | ⟨hl, hi, h⟩ <;> rw [h]
      · simpa using TokenEffect.leaf (s := s) b t p sym rfl (by simpa using hl)
      · exact .inner b t p rfl (by simpa using hl) (by simpa using hi)
      · simpa using TokenEffect.off (s := s) b t p rfl (by simpa using hl) (by simpa using hi)
    | raw ext n taken value =>
      rw [takeBit]
      rcases rawAt_cases ext n (taken + 1) (pushBit value b) (countBit s) with ⟨hn, h⟩ | ⟨hn, h⟩ <;> rw [h]
      · exact .full b ext n taken value rfl hn
      · exact .partly b ext n taken value rfl hn
  cases tok with
  | bit0 => exact bit false
  | bit1 => exact bit true
  | eos => exact .ended

end Sys2Proof.Machine
end

