-- ==== Sys2Proof/Laws/Encoding.lean ====
section
/-! SUPPORT. The fields of a packed word, and a word as the pack of its fields (spec/30_encoding.md R71). -/

namespace Sys2Proof

variable (op : BitVec 8) (tbl rsv1 : BitVec 4) (len sym : BitVec 8) (rsv2 code : BitVec 16)

/-! ### Each field of a packed word is the field that went in -/

@[simp] theorem opField_packWord : opField (packWord op tbl rsv1 len sym rsv2 code) = op := by
  ext i hi
  simp only [opField, packWord, BitVec.getElem_extractLsb', BitVec.getLsbD_append]
  grind

@[simp] theorem tblField_packWord : tblField (packWord op tbl rsv1 len sym rsv2 code) = tbl := by
  ext i hi
  simp only [tblField, packWord, BitVec.getElem_extractLsb', BitVec.getLsbD_append]
  grind

@[simp] theorem rsv1Field_packWord : rsv1Field (packWord op tbl rsv1 len sym rsv2 code) = rsv1 := by
  ext i hi
  simp only [rsv1Field, packWord, BitVec.getElem_extractLsb', BitVec.getLsbD_append]
  grind

@[simp] theorem lenField_packWord : lenField (packWord op tbl rsv1 len sym rsv2 code) = len := by
  ext i hi
  simp only [lenField, packWord, BitVec.getElem_extractLsb', BitVec.getLsbD_append]
  grind

@[simp] theorem symField_packWord : symField (packWord op tbl rsv1 len sym rsv2 code) = sym := by
  ext i hi
  simp only [symField, packWord, BitVec.getElem_extractLsb', BitVec.getLsbD_append]
  grind

@[simp] theorem rsv2Field_packWord : rsv2Field (packWord op tbl rsv1 len sym rsv2 code) = rsv2 := by
  ext i hi
  simp only [rsv2Field, packWord, BitVec.getElem_extractLsb', BitVec.getLsbD_append]
  grind

@[simp] theorem codeField_packWord : codeField (packWord op tbl rsv1 len sym rsv2 code) = code := by
  ext i hi
  simp only [codeField, packWord, BitVec.getElem_extractLsb', BitVec.getLsbD_append]
  grind

/-- A word is the pack of its fields. -/
theorem packWord_fields (w : CmdWord) :
    packWord (opField w) (tblField w) (rsv1Field w) (lenField w) (symField w) (rsv2Field w) (codeField w) = w := by
  ext i hi
  simp only [packWord, opField, tblField, rsv1Field, lenField, symField, rsv2Field, codeField]
  grind

/-- Two packed words are equal when all their fields are. -/
theorem packWord_inj {op' : BitVec 8} {tbl' rsv1' : BitVec 4} {len' sym' : BitVec 8} {rsv2' code' : BitVec 16}
    (h : packWord op tbl rsv1 len sym rsv2 code = packWord op' tbl' rsv1' len' sym' rsv2' code') :
    op = op' ∧ tbl = tbl' ∧ rsv1 = rsv1' ∧ len = len' ∧ sym = sym' ∧ rsv2 = rsv2' ∧ code = code' :=
  ⟨by simpa using congrArg opField h, by simpa using congrArg tblField h, by simpa using congrArg rsv1Field h,
    by simpa using congrArg lenField h, by simpa using congrArg symField h, by simpa using congrArg rsv2Field h,
    by simpa using congrArg codeField h⟩

/-- Masking a packed word masks its fields (R83). -/
theorem packWord_and (op' : BitVec 8) (tbl' rsv1' : BitVec 4) (len' sym' : BitVec 8) (rsv2' code' : BitVec 16) :
    packWord op tbl rsv1 len sym rsv2 code &&& packWord op' tbl' rsv1' len' sym' rsv2' code' =
      packWord (op &&& op') (tbl &&& tbl') (rsv1 &&& rsv1') (len &&& len') (sym &&& sym') (rsv2 &&& rsv2')
        (code &&& code') := by
  have field_and : ∀ (k n : Nat) (x y : CmdWord),
      (x &&& y).extractLsb' k n = x.extractLsb' k n &&& y.extractLsb' k n := by
    intro k n x y; ext i hi; simp
  rw [← packWord_fields (packWord op tbl rsv1 len sym rsv2 code &&& packWord op' tbl' rsv1' len' sym' rsv2' code')]
  have h8 := fun k => field_and k 8 (packWord op tbl rsv1 len sym rsv2 code) (packWord op' tbl' rsv1' len' sym' rsv2' code')
  have h4 := fun k => field_and k 4 (packWord op tbl rsv1 len sym rsv2 code) (packWord op' tbl' rsv1' len' sym' rsv2' code')
  have h16 := fun k => field_and k 16 (packWord op tbl rsv1 len sym rsv2 code) (packWord op' tbl' rsv1' len' sym' rsv2' code')
  congr 1
  · exact (h8 56).trans (congrArg₂ _ (opField_packWord ..) (opField_packWord ..))
  · exact (h4 52).trans (congrArg₂ _ (tblField_packWord ..) (tblField_packWord ..))
  · exact (h4 48).trans (congrArg₂ _ (rsv1Field_packWord ..) (rsv1Field_packWord ..))
  · exact (h8 40).trans (congrArg₂ _ (lenField_packWord ..) (lenField_packWord ..))
  · exact (h8 32).trans (congrArg₂ _ (symField_packWord ..) (symField_packWord ..))
  · exact (h16 16).trans (congrArg₂ _ (rsv2Field_packWord ..) (rsv2Field_packWord ..))
  · exact (h16 0).trans (congrArg₂ _ (codeField_packWord ..) (codeField_packWord ..))

/-! ### The opcode map (R73) -/

theorem opOf_code (o : Op) : opOf o.code = some o := by cases o <;> rfl

theorem code_of_opOf {b : BitVec 8} {o : Op} (h : opOf b = some o) : b = o.code := by
  apply BitVec.eq_of_toNat_eq
  unfold opOf at h
  split at h <;> simp_all [Op.code] <;> (cases h; simp_all)

end Sys2Proof
end

