-- ==== Sys2Proof/Laws/Operands.lean ====
section
/-! SUPPORT. The laws of bit strings and their values. -/

namespace Sys2Proof.Machine

/-- `bits_L(c)` has L bits (R10). -/
@[simp] theorem length_bitsOf : ∀ l c : Nat, (bitsOf l c).length = l
  | 0, _ => rfl
  | l + 1, c => by rw [bitsOf, List.length_cons, length_bitsOf l c]

@[simp] theorem valueOf_nil : valueOf [] = 0 := rfl

/-- Bits taken after a value shift it up by their count (R113). -/
theorem foldl_pushBit (bs : Bits) (v : Nat) : bs.foldl pushBit v = v * 2 ^ bs.length + valueOf bs := by
  induction bs generalizing v with
  | nil => simp
  | cons b bs ih =>
    rw [valueOf, List.foldl_cons, List.foldl_cons, ih, ih (pushBit 0 b)]
    simp only [List.length_cons, pushBit]
    ring

/-- A value has no more bits than its bit string (R10). -/
theorem valueOf_lt (bs : Bits) : valueOf bs < 2 ^ bs.length := by
  induction bs with
  | nil => simp
  | cons b bs ih =>
    rw [valueOf, List.foldl_cons, foldl_pushBit, List.length_cons, pow_succ]
    cases b <;> simp [pushBit] <;> omega

end Sys2Proof.Machine
end

