-- ==== Sys2Proof/Laws/PerInstr.lean ====
section
/-! SUPPORT. What holds of every command's word, one lemma per command. -/

namespace Sys2Proof.Laws.Encoding

/-- The word of a command has the command's `OP` (R72), zeros in the reserved fields and zeros in every field the command does
not use (R80). -/
def Statement (i : Instr) : Prop :=
  opField (encode i) = i.op.code ∧ reservedFieldSet (encode i) = false ∧ unusedFieldSet i.op (encode i) = false

theorem clr (t : BitVec 4) : Statement (.clr t) := by
  simp [Statement, encode, Instr.op, reservedFieldSet, unusedFieldSet, Op.uses]

theorem ins (t : BitVec 4) (len : BitVec 8) (code : BitVec 16) (sym : Symbol) : Statement (.ins t len code sym) := by
  simp [Statement, encode, Instr.op, reservedFieldSet, unusedFieldSet, Op.uses]

theorem dec (t : BitVec 4) : Statement (.dec t) := by
  simp [Statement, encode, Instr.op, reservedFieldSet, unusedFieldSet, Op.uses]

theorem rcv (n : BitVec 8) : Statement (.rcv n) := by
  simp [Statement, encode, Instr.op, reservedFieldSet, unusedFieldSet, Op.uses]

theorem rcvx (n : BitVec 8) : Statement (.rcvx n) := by
  simp [Statement, encode, Instr.op, reservedFieldSet, unusedFieldSet, Op.uses]

theorem ack : Statement .ack := by
  simp [Statement, encode, Instr.op, reservedFieldSet, unusedFieldSet, Op.uses]

end Sys2Proof.Laws.Encoding
end

