-- ==== Sys2Proof/Laws/TreeView.lean ====
section
/-! SUPPORT. The laws of the tree view: what stands at a node, and that a path with a leaf at its end is never empty. -/

namespace Sys2Proof.Machine

@[simp] theorem nodeAt_nil (tr : Tree) : nodeAt tr [] = tr := by cases tr <;> rfl

/-- Below a node that is not there, no node is. -/
@[simp] theorem nodeAt_absent (p : Bits) : nodeAt .absent p = .absent := by
  cases p with
  | nil => rfl
  | cons b p => cases b <;> rfl

@[simp] theorem nodeAt_node_cons (l r : Tree) (b : Bool) (p : Bits) :
    nodeAt (.node l r) (b :: p) = nodeAt (if b then r else l) p := by cases b <;> rfl

/-- The tree with a path added is not empty (R24). -/
theorem graft_ne_absent (tr : Tree) (s : Bits) (sym : Symbol) : graft tr s sym ≠ .absent := by
  cases s with
  | nil => cases tr <;> simp [graft]
  | cons b s => cases b <;> cases tr <;> simp [graft]

/-- A node with a child is an internal node (R16). -/
theorem found_node {l r : Tree} (h : l ≠ .absent ∨ r ≠ .absent) : (Tree.node l r).found = .inner := by
  cases l <;> cases r <;> simp_all [Tree.found]

/-- The root of the empty table is a node (R24). -/
@[simp] theorem found_root : Tree.root.found = .bareRoot := rfl

end Sys2Proof.Machine
end

