-- ==== Sys2Proof/Machine/Assembler.lean ====
section
/-! DEFINITION. The assembler of spec/30_encoding.md R84: one command per line, any case, `;` begins a comment. The words of a
command are `encode`'s; what R84 leaves open of the spelling is log 11 (DESIGN CHOICE). -/

namespace Sys2Proof.Machine

/-- What one line gives. -/
inductive AsmLine where
  /-- Nothing but spaces or a comment. -/
  | blank
  | command (i : Instr)
  | refused
  deriving DecidableEq, Repr

/-- Spaces and tabs separate (DESIGN CHOICE, log 11). -/
def isBlankChar (c : Char) : Bool := c == ' ' || c == '\t'

/-- A line's text without blanks at its two ends. -/
def trimBlanks (cs : List Char) : List Char :=
  ((cs.dropWhile isBlankChar).reverse.dropWhile isBlankChar).reverse

/-- The value of a digit in a base, the letters already upper case. -/
def digitValue (base : Nat) (c : Char) : Option Nat :=
  let v := if '0' ≤ c ∧ c ≤ '9' then c.toNat - '0'.toNat
    else if 'A' ≤ c ∧ c ≤ 'F' then c.toNat - 'A'.toNat + 10
    else base
  if v < base then some v else none

/-- A run of digits, read on from `acc`. -/
def digitsFrom (base acc : Nat) : List Char → Option Nat
  | [] => some acc
  | c :: cs =>
    match digitValue base c with
    | some v => digitsFrom base (acc * base + v) cs
    | none => none

/-- A number needs at least one digit. -/
def digits (base : Nat) : List Char → Option Nat
  | [] => none
  | cs => digitsFrom base 0 cs

/-- `<t>`, `<L>`, `<n>`, `<sym>`: decimal or `0x` hexadecimal. -/
def number : List Char → Option Nat
  | '0' :: 'X' :: ds => digits 16 ds
  | ds => digits 10 ds

/-- `<code>` of an `INS` of length `len`: also `0b` binary, of exactly `len` digits. -/
def codeNumber (len : Nat) : List Char → Option Nat
  | '0' :: 'B' :: ds => if ds.length = len then digits 2 ds else none
  | ds => number ds

/-- A number that fits a field of `width` bits. -/
def inField (width : Nat) (v : Option Nat) : Option (BitVec width) :=
  match v with
  | some n => if n < 2 ^ width then some (BitVec.ofNat width n) else none
  | none => none

/-- `T<t>`. -/
def tableName : List Char → Option (BitVec 4)
  | 'T' :: ds => inField 4 (number ds)
  | _ => none

/-- The operands of a line, split at commas. -/
def splitCommas : List Char → List (List Char)
  | [] => [[]]
  | c :: cs =>
    if c = ',' then [] :: splitCommas cs
    else
      match splitCommas cs with
      | [] => [[c]]
      | w :: ws => (c :: w) :: ws

/-- A mnemonic and its operands, upper case and trimmed (R84). -/
def parseCommand : List Char → List (List Char) → Option Instr
  | ['C', 'L', 'R'], [t] => (tableName t).map .clr
  | ['I', 'N', 'S'], [t, l, c, s] =>
    match tableName t, inField 8 (number l), inField 8 (number s) with
    | some t, some len, some sym =>
      (inField 16 (codeNumber len.toNat c)).map fun code => .ins t len code sym
    | _, _, _ => none
  | ['D', 'E', 'C'], [t] => (tableName t).map .dec
  | ['R', 'C', 'V'], [n] => (inField 8 (number n)).map .rcv
  | ['R', 'C', 'V', 'X'], [n] => (inField 8 (number n)).map .rcvx
  | ['A', 'C', 'K'], [[]] => some .ack
  | _, _ => none

/-- One line of assembly (R84). -/
def assemble (line : List Char) : AsmLine :=
  let text := trimBlanks ((line.takeWhile (· != ';')).map Char.toUpper)
  if text.isEmpty then .blank
  else
    let mnemonic := text.takeWhile (fun c => !isBlankChar c)
    let ops := (splitCommas (text.dropWhile (fun c => !isBlankChar c))).map trimBlanks
    match parseCommand mnemonic ops with
    | some i => if i.assemblable then .command i else .refused
    | none => .refused

end Sys2Proof.Machine
end

