-- ==== Sys2Proof/Tests/Slice0.lean ====
section
/-! SUPPORT. Tests and witnesses. Every expected value is the spec's (spec/95_test_vectors.md, by vector name, or the rule
named), not the model's own answer. A theorem named `witness_<Obligation>` shows a state and operands that meet all of that
obligation's hypotheses together; a number in the name is the clause it is for. -/

namespace Sys2Proof.Tests

open Sys2Proof Sys2Proof.Machine

/-! ### Small states -/

/-- Table TS of 95_test_vectors. -/
def tableTS : Table :=
  [⟨[false, false], 0⟩, ⟨[false, true], 1⟩, ⟨[true, false, false], 2⟩, ⟨[true, false, true], 3⟩,
    ⟨[true, true, false], 4⟩, ⟨[true, true, true, false], 5⟩]

/-- A block of two tables of at most eight codes, with TS in table 0. -/
def stateTS : State := { State.resetWith ⟨2, 8⟩ with tables := [tableTS, []] }

/-- A block of one full table: MAX_ENTRIES = 2 and the codes 00 and 01 (V-I14). -/
def stateFull : State := { State.resetWith ⟨1, 2⟩ with tables := [[⟨[false, false], 0⟩, ⟨[false, true], 1⟩]] }

/-- A block that raised ILLEGAL_OP, with TS in table 0. -/
def stateFaulted : State := { stateTS with fault := true, cause := 1, resStatus := .fault }

/-- A block whose `DEC T0` has taken the bit 1 and waits. -/
def stateWalking : State := { stateTS with inFlight := some (.walk 0 [true]), bitcnt := 1 }

/-- A block whose `RCV 3` has taken the bits 10 and waits. -/
def stateReading : State := { stateTS with inFlight := some (.raw false 3 2 2), bitcnt := 2 }

/-- The block after one step that takes `word`, the bit source offering `toks`. -/
def send (word : CmdWord) (toks : List Token) (s : State) : State :=
  match step { s with cmds := [word], tokens := toks } with
  | .next u => u
  | _ => s

/-- STATUS, RESULT, RES_VALUE and BITCNT, as the host reads them. -/
def regs (s : State) : List RegWord := [readReg s 0x00, readReg s 0x04, readReg s 0x08, readReg s 0x0C]

/-! ### WellFormed: one ill-formed command per check (R74, R75, R77), and the edges that pass -/

theorem test_wellFormed_clr_table : Instr.wellFormed ⟨8, 256⟩ (.clr 8) = false := by decide

theorem test_wellFormed_clr_edge : Instr.wellFormed ⟨8, 256⟩ (.clr 7) = true := by decide

theorem test_wellFormed_ins_table : Instr.wellFormed ⟨1, 256⟩ (.ins 1 2 0 0) = false := by decide

theorem test_wellFormed_ins_length_zero : Instr.wellFormed ⟨8, 256⟩ (.ins 0 0 0 0) = false := by decide

theorem test_wellFormed_ins_length_17 : Instr.wellFormed ⟨8, 256⟩ (.ins 0 17 0 0) = false := by decide

theorem test_wellFormed_ins_code : Instr.wellFormed ⟨8, 256⟩ (.ins 0 2 4 0) = false := by decide

theorem test_wellFormed_ins_edge : Instr.wellFormed ⟨8, 256⟩ (.ins 7 16 0xFFFF 0x7A) = true := by decide

theorem test_wellFormed_dec_table : Instr.wellFormed ⟨8, 256⟩ (.dec 8) = false := by decide

theorem test_wellFormed_rcv_length : Instr.wellFormed ⟨8, 256⟩ (.rcv 17) = false := by decide

theorem test_wellFormed_rcv_edge : Instr.wellFormed ⟨8, 256⟩ (.rcv 16) = true := by decide

theorem test_wellFormed_rcvx_length : Instr.wellFormed ⟨8, 256⟩ (.rcvx 17) = false := by decide

theorem test_wellFormed_ack : Instr.wellFormed ⟨1, 1⟩ (.ack) = true := by decide

/-! ### Decoding: words written out bit by bit from R83 -/

theorem test_decode_clr :
    decode 0b0000000101110000000000000000000000000000000000000000000000000000 = .command (.clr 7) ∧
    encode (.clr 7) =
      0b0000000101110000000000000000000000000000000000000000000000000000 := by decide

theorem test_decode_ins :
    decode 0b0000001010100000000001011100001100000000000000000000000000010110 = .command (.ins 10 5 22 0xC3) ∧
    encode (.ins 10 5 22 0xC3) =
      0b0000001010100000000001011100001100000000000000000000000000010110 := by decide

theorem test_decode_dec :
    decode 0b0000001110010000000000000000000000000000000000000000000000000000 = .command (.dec 9) ∧
    encode (.dec 9) =
      0b0000001110010000000000000000000000000000000000000000000000000000 := by decide

theorem test_decode_rcv :
    decode 0b0000010000000000000010110000000000000000000000000000000000000000 = .command (.rcv 11) ∧
    encode (.rcv 11) =
      0b0000010000000000000010110000000000000000000000000000000000000000 := by decide

theorem test_decode_rcvx :
    decode 0b0000010100000000000001100000000000000000000000000000000000000000 = .command (.rcvx 6) ∧
    encode (.rcvx 6) =
      0b0000010100000000000001100000000000000000000000000000000000000000 := by decide

theorem test_decode_ack :
    decode 0b0000011000000000000000000000000000000000000000000000000000000000 = .command (.ack) ∧
    encode (.ack) =
      0b0000011000000000000000000000000000000000000000000000000000000000 := by decide

/-- A reserved bit, and an operation that is not there (R130, R131). -/
theorem test_decode_refusals :
    decode 0x0101000000000000 = .raises .reservedBits ∧ decode 0x0200020000010000 = .raises .reservedBits ∧
      decode 0 = .raises .illegalOp ∧ decode 0x07FFFFFFFFFFFFFF = .raises .illegalOp := by decide

/-- Byte 0 of a stored word holds bits 63:56 (R59). -/
theorem test_decode_bytes :
    decodeBytes [0x02, 0x20, 0x03, 0x11, 0x00, 0x00, 0x00, 0x05, 0xAA] = some (.command (.ins 2 3 5 0x11), [0xAA]) ∧
      decodeBytes [0x02, 0x20, 0x03] = none := by decide

theorem test_decodeTableWord :
    decodeTableWord 64 0x0500030000000000 = some (.rcvx 3) ∧ decodeTableWord 64 0x0600000000000001 = none := by decide

/-- The first instruction after reset, placed where the next step takes it. -/
theorem test_withFetchWord :
    step (State.reset.withFetchWord 64 0x0200020000000000) =
      exec (.ins 0 2 0 0) { State.reset with cmds := [] } := rfl

/-! ### The vectors of 95_test_vectors -/

/-- V-C4: t = TABLE_COUNT. -/
theorem test_clr_bad_table :
    regs (send 0x0180000000000000 [.eos] State.reset) =
      [0x31, 0x0002, 0, 0] := by decide

/-- V-C1: the table is empty after, and TBLCNT reads 0. -/
theorem test_clr_empties :
    (send 0x0100000000000000 [.eos] stateTS).tables = [[], []] ∧
      regs (send 0x0100000000000000 [.eos] stateTS) = [0, 0, 0, 0] ∧
      readReg stateTS 0x40 = 6 ∧ readReg (send 0x0100000000000000 [.eos] stateTS) 0x40 = 0 := by decide

/-- Table TS as its INS words build it, in the listed order (section 2 of 95_test_vectors). -/
theorem test_ins_builds_TS :
    (send 0x020004050000000E [] <| send 0x0200030400000006 [] <| send 0x0200030300000005 [] <|
      send 0x0200030200000004 [] <| send 0x0200020100000001 [] <| send 0x0200020000000000 [] <|
      State.resetWith ⟨2, 8⟩) = { stateTS with cmds := [] } := by decide

/-- V-I10 and V-I15: `000` passes through the leaf `00`, in a full table too. -/
theorem test_ins_conflict :
    regs (send 0x0200030100000000 [.eos] stateFull) = [0x61, 0x0002, 0, 0] ∧
      (send 0x0200030100000000 [.eos] stateFull).tables = stateFull.tables := by decide

/-- V-I14. -/
theorem test_ins_full :
    regs (send 0x0200020200000002 [.eos] stateFull) =
      [0x71, 0x0002, 0, 0] := by decide

/-- V-I18: TBL, LEN and CODE all bad. -/
theorem test_ins_bad_table_first :
    regs (send 0x0290000000000004 [.eos] State.reset) =
      [0x31, 0x0002, 0, 0] := by decide

/-- V-I4: length 255. -/
theorem test_ins_length_before_code :
    regs (send 0x0200FF0000000000 [.eos] State.reset) =
      [0x41, 0x0002, 0, 0] := by decide

/-- V-D4. -/
theorem test_dec_ok :
    regs (send 0x0300000000000000 [.bit1, .bit0, .bit1, .eos] stateTS) =
      [0, 0x0300, 3, 3] := by decide

/-- V-D7: the code tree is left at `1111`. -/
theorem test_dec_invalid :
    regs (send 0x0300000000000000 [.bit1, .bit1, .bit1, .bit1, .eos] stateTS) =
      [0x91, 0x0402, 0, 4] := by decide

/-- V-D19: `NONE` ends the walk, and the later `0` stays at the source. -/
theorem test_dec_none :
    regs (send 0x0300000000000000 [.bit0, .eos, .bit0] stateTS) = [0, 0x0101, 0, 1] ∧
      (send 0x0300000000000000 [.bit0, .eos, .bit0] stateTS).tokens = [.bit0] := by decide

/-- V-D11: no bit requested. -/
theorem test_dec_empty :
    regs (send 0x0300000000000000 [.bit0, .bit0, .eos] State.reset) =
      [0x81, 0x0002, 0, 0] := by decide

/-- V-R3. -/
theorem test_rcv_msb_first :
    regs (send 0x0400050000000000 [.bit1, .bit1, .bit0, .bit0, .bit1, .eos] State.reset) =
      [0, 0x0500, 25, 5] := by decide

/-- V-R6. -/
theorem test_rcv_none :
    regs (send 0x0400030000000000 [.bit1, .bit1, .eos] State.reset) =
      [0, 0x0201, 0, 2] := by decide

/-- V-X4. -/
theorem test_rcvx_negative :
    regs (send 0x0500030000000000 [.bit0, .bit1, .bit0, .eos] State.reset) =
      [0, 0x0300, 0xFFFFFFFB, 3] := by decide

/-- V-X9. -/
theorem test_rcvx_lowest :
    regs (send 0x0500100000000000 (List.replicate 16 .bit0) State.reset) =
      [0, 0x1000, 0xFFFF0001, 16] := by decide

/-- V-A1. -/
theorem test_ack_clears :
    regs (send 0x0600000000000000 [.eos] stateFaulted) =
      [0, 0x0000, 0, 0] := by decide

/-- V-A4. -/
theorem test_ack_inexact_rejected :
    regs (send 0x0600000000000001 [.eos] stateFaulted) =
      [0x11, 0x0003, 0, 0] := by decide

/-- V-A5. -/
theorem test_dec_rejected :
    regs (send 0x0300000000000000 [.bit0, .bit0, .eos] stateFaulted) =
      [0x11, 0x0003, 0, 0] := by decide

/-- V-L3. -/
theorem test_illegal_before_reserved :
    regs (send 0xFF0000000000FFFF [.eos] State.reset) =
      [0x11, 0x0002, 0, 0] := by decide

/-- V-R8: TBL nonzero in RCV. -/
theorem test_reserved_bits :
    regs (send 0x0410030000000000 [.bit1, .eos] State.reset) =
      [0x21, 0x0002, 0, 0] := by decide

/-- A DEC that has one token waits, its bit counted (R37, R42), and goes on when the rest comes. -/
theorem test_dec_waits :
    send 0x0300000000000000 [.bit1] stateTS = stateWalking ∧ requestsBit stateWalking = true ∧
      step { stateWalking with tokens := [.bit0, .bit1] } =
        .next { stateTS with resNbits := 3, resValue := 3, bitcnt := 3 } := by
  refine ⟨by decide, by decide, rfl⟩

/-- EXTEND for n = 3 (section 3.7 of 95_test_vectors). -/
theorem test_extend : (List.range 8).map (fun raw => extend raw 3) = [-7, -6, -5, -4, 4, 5, 6, 7] := by decide

/-- CONFIG and the reserved addresses (section 3.8 of 95_test_vectors). -/
theorem test_config :
    readReg State.reset 0x10 = 0x01000008 ∧ readReg (State.resetWith ⟨1, 2⟩) 0x10 = 0x00020001 ∧
      readReg (State.resetWith ⟨16, 65535⟩) 0x10 = 0xFFFF0010 ∧ readReg State.reset 0x14 = 0 ∧
      readReg State.reset 0xFF = 0 := by decide

/-- Section 3.8 of 95_test_vectors: STATUS at 0x00 to 0x03 and RESULT after an INVALID_CODE after nine bits. -/
theorem test_status_and_result :
    readReg { State.reset with fault := true, cause := 9, resStatus := .fault, resNbits := 9 } 0x03 = 0x00000091 ∧
      readReg { State.reset with fault := true, cause := 9, resStatus := .fault, resNbits := 9 } 0x04 = 0x00000902 := by
  decide

/-! ### The reference source, the host's side and the assembler -/

/-- V-B1: a stuffed 0x00 is skipped. -/
theorem test_refSource_stuffing :
    (RefSource.pops 17 (RefSource.start [0xFF, 0x00, 0x80])).1 =
      List.replicate 9 .bit1 ++ List.replicate 7 .bit0 ++ [.eos] := by decide

/-- V-B9: a 0xFF before a marker, in both readings. -/
theorem test_refSource_marker :
    (RefSource.pops 18 (RefSource.start [0x00, 0xFF, 0xFF])).1 =
      List.replicate 8 .bit0 ++ List.replicate 8 .bit1 ++ [.eos, .eos] ∧
    (RefSource.pops 10 { RefSource.start [0x00, 0xFF, 0xFF] with markerFfBitsDelivered := false }).1 =
      List.replicate 8 .bit0 ++ [.eos, .eos] := by decide

/-- R24: the root is a node of the empty table too, and the table `00` has two single-child nodes and a leaf. -/
theorem test_treeOf :
    (nodeAt (treeOf []) []).found = .bareRoot ∧ (nodeAt (treeOf []) [false]).found = .missing ∧
      treeOf [⟨[false, false], 7⟩] = .node (.node (.leaf 7) .absent) .absent := by decide

/-- Table TK of 95_test_vectors is LOADCANON of its counts: its 9-bit code and its first codes. -/
theorem test_loadCanon :
    (canonicalCodes 1 0 [0, 1, 5, 1, 1, 1, 1, 1, 1] [0, 1, 2, 3, 4, 5, 6, 7, 8, 9, 10, 11]).map
        (fun e => (e.len, e.code, e.sym.toNat)) =
      [(2, 0b00, 0), (3, 0b010, 1), (3, 0b011, 2), (3, 0b100, 3), (3, 0b101, 4), (3, 0b110, 5), (4, 0b1110, 6),
        (5, 0b11110, 7), (6, 0b111110, 8), (7, 0b1111110, 9), (8, 0b11111110, 10), (9, 0b111111110, 11)] := by decide

/-- DCDIFF and ACSYM after their DEC (R86, R87). -/
theorem test_host_sequences :
    dcDiffAfterDec { State.reset with resValue := 3 } = .send (.rcvx 3) ∧
      dcDiffAfterDec State.reset = .zero ∧
      acSymAfterDec { State.reset with resValue := 0x35 } = .send 3 (.rcvx 5) ∧
      acSymAfterDec { State.reset with resValue := 0xF0 } = .zeroRun 15 ∧
      acSymAfterDec State.reset = .endOfBlock := by decide

/-- R84: `ins t0, 3, 0b010, 0x01 ; x`. -/
theorem test_assemble_ins :
    assemble
      ['i', 'n', 's', ' ', 't', '0', ',', ' ', '3', ',', ' ', '0', 'b', '0', '1', '0', ',', ' ', '0', 'x', '0', '1', ' ',
        ';', ' ', 'x'] =
      .command (.ins 0 3 2 1) := by decide

/-- R84: `INS T0, 3, 0b01, 0x01`. -/
theorem test_assemble_short_binary :
    assemble
      ['I', 'N', 'S', ' ', 'T', '0', ',', ' ', '3', ',', ' ', '0', 'b', '0', '1', ',', ' ', '0', 'x', '0', '1'] =
      .refused := by decide

/-- R84: `RCV 17`. -/
theorem test_assemble_rcv_17 :
    assemble
      ['R', 'C', 'V', ' ', '1', '7'] =
      .refused := by decide

/-- R84: `ack`. -/
theorem test_assemble_ack :
    assemble
      ['a', 'c', 'k'] =
      .command .ack := by decide

/-! ### Witnesses for the obligations' hypotheses -/

/-- The block with TS, the bit source offering `toks`. -/
def offering (toks : List Token) : State := { stateTS with tokens := toks }

/-- The block with TS, one word on its command port. -/
def holding (word : CmdWord) : State := { stateTS with cmds := [word] }

/-- The invariant of a state, one decidable part at a time. -/
theorem inv_of {s : State} (h1 : s.cfg.Conforming) (h2 : TablesWf s) (h3 : StatusWf s) (h4 : ResultWf s)
    (h5 : inFlightWf s = true) : Inv s := ⟨h1, h2, h3, h4, h5⟩

theorem inv_stateTS : Inv stateTS := inv_of (by decide) (by decide) (by decide) (by decide) (by decide)

theorem inv_stateWalking : Inv stateWalking := inv_of (by decide) (by decide) (by decide) (by decide) (by decide)

theorem inv_stateReading : Inv stateReading := inv_of (by decide) (by decide) (by decide) (by decide) (by decide)

theorem inv_stateFaulted : Inv stateFaulted := inv_of (by decide) (by decide) (by decide) (by decide) (by decide)

theorem inv_stateFull : Inv stateFull := inv_of (by decide) (by decide) (by decide) (by decide) (by decide)

theorem witness_RstWinsAndResetsEverything : { stateWalking with rst := true }.rst = true := rfl

theorem witness_InvHoldsAtReset :
    Config.default.Conforming ∧ Config.Conforming ⟨1, 1⟩ ∧ Config.Conforming ⟨16, 65535⟩ := by decide

theorem witness_EveryStepKeepsInv :
    Inv stateWalking ∧ (∃ t, step stateWalking = .next t) ∧
      Inv (holding 0x020004060000000F) ∧ ∃ t, step (holding 0x020004060000000F) = .next t :=
  ⟨inv_stateWalking, ⟨_, rfl⟩, inv_of (by decide) (by decide) (by decide) (by decide) (by decide), _, rfl⟩

theorem witness_StepRunsTheDecodedCommand :
    (holding 0x0300000000000000).rst = false ∧ (holding 0x0300000000000000).inFlight = none ∧
      (holding 0x0300000000000000).cmds = [0x0300000000000000] ∧ decode 0x0300000000000000 = .command (.dec 0) := by
  decide

theorem witness_WaitingChangesNothing_1 : stateTS.rst = false ∧ stateTS.inFlight = none ∧ stateTS.cmds = [] := by decide

theorem witness_WaitingChangesNothing_2 :
    stateWalking.rst = false ∧ stateWalking.inFlight ≠ none ∧ stateWalking.tokens = [] := by decide

theorem witness_NoCommandIsTakenWhileOneIsInProgress : stateReading.inFlight ≠ none := by decide

theorem witness_IllegalOpRaisesItsFault_1 :
    (holding 1).rst = false ∧ Ready (holding 1) ∧ (holding 1).cmds = [1] ∧ (opField 1).toNat = 0 := by decide

theorem witness_IllegalOpRaisesItsFault_2 :
    (holding 0x0700000000000000).rst = false ∧ Ready (holding 0x0700000000000000) ∧
      (holding 0x0700000000000000).cmds = [0x0700000000000000] ∧ 7 ≤ (opField 0x0700000000000000).toNat ∧
      7 ≤ (opField 0xFF00000000000000).toNat := by decide

theorem witness_ReservedBitsRaiseTheirFault_1 :
    (holding 0x0101000000000000).rst = false ∧ Ready (holding 0x0101000000000000) ∧
      (holding 0x0101000000000000).cmds = [0x0101000000000000] ∧
      opField 0x0101000000000000 = Op.clr.code ∧ rsv1Field 0x0101000000000000 ≠ 0 := by decide

theorem witness_ReservedBitsRaiseTheirFault_2 :
    (holding 0x0200020080000000).rst = false ∧ Ready (holding 0x0200020080000000) ∧
      (holding 0x0200020080000000).cmds = [0x0200020080000000] ∧
      opField 0x0200020080000000 = Op.ins.code ∧ rsv2Field 0x0200020080000000 ≠ 0 := by decide

theorem witness_ReservedBitsRaiseTheirFault_3 :
    (holding 0x0480000000000000).rst = false ∧ Ready (holding 0x0480000000000000) ∧
      (holding 0x0480000000000000).cmds = [0x0480000000000000] ∧
      opField 0x0480000000000000 = Op.rcv.code ∧ Op.rcv.uses.tbl = false ∧ tblField 0x0480000000000000 ≠ 0 := by decide

theorem witness_ReservedBitsRaiseTheirFault_4 :
    (holding 0x0300010000000000).rst = false ∧ Ready (holding 0x0300010000000000) ∧
      (holding 0x0300010000000000).cmds = [0x0300010000000000] ∧
      opField 0x0300010000000000 = Op.dec.code ∧ Op.dec.uses.len = false ∧ lenField 0x0300010000000000 ≠ 0 := by decide

theorem witness_ReservedBitsRaiseTheirFault_5 :
    (holding 0x0500000100000000).rst = false ∧ Ready (holding 0x0500000100000000) ∧
      (holding 0x0500000100000000).cmds = [0x0500000100000000] ∧
      opField 0x0500000100000000 = Op.rcvx.code ∧ Op.rcvx.uses.sym = false ∧ symField 0x0500000100000000 ≠ 0 := by decide

theorem witness_ReservedBitsRaiseTheirFault_6 :
    (holding 0x0600000000000001).rst = false ∧ Ready (holding 0x0600000000000001) ∧
      (holding 0x0600000000000001).cmds = [0x0600000000000001] ∧
      opField 0x0600000000000001 = Op.ack.code ∧ Op.ack.uses.code = false ∧ codeField 0x0600000000000001 ≠ 0 := by decide

theorem witness_FaultedBlockRejectsAllButAck :
    stateFaulted.rst = false ∧ stateFaulted.inFlight = none ∧ stateFaulted.fault = true ∧
      { stateFaulted with cmds := [0x0600000000000001] }.cmds = [0x0600000000000001] ∧
      (0x0600000000000001 : CmdWord) ≠ 0x0600000000000000 := by decide

theorem witness_OneWordSpellsEachCommand : decode 0x0120000000000000 = .command (.clr 2) := by decide

theorem witness_DecodesExactlyWhenItHasTheShape :
    decode 0x0400100000000000 = .command (.rcv 16) ∧ hasShape .rcv 0x0400100000000000 = true := by decide

/-- The lowest and the highest table. -/
theorem witness_ClrEmptiesItsTable :
    Ready stateTS ∧ (0 : BitVec 4).toNat < stateTS.cfg.tableCount ∧ (1 : BitVec 4).toNat < stateTS.cfg.tableCount := by
  decide

theorem witness_InsAddsItsCodeword :
    Ready stateTS ∧ stateTS.tables.length = stateTS.cfg.tableCount ∧
      (Instr.ins 0 4 15 6).wellFormed stateTS.cfg = true ∧
      (∀ e ∈ stateTS.table 0, ¬ e.code <+: codeword 4 15 ∧ ¬ codeword 4 15 <+: e.code) ∧
      entries (stateTS.table 0) < stateTS.cfg.maxEntries := by decide

theorem witness_CodewordSpellsItsCodeValue : (0xFFFF : BitVec 16).toNat < 2 ^ (16 : BitVec 8).toNat := by decide

/-- The three cases of R93: equal, extending a codeword, beginning one. -/
theorem witness_InsConflictRaisesCodeConflict :
    Ready stateFull ∧ (Instr.ins 0 2 0 9).wellFormed stateFull.cfg = true ∧
      (Instr.ins 0 3 0 9).wellFormed stateFull.cfg = true ∧ (Instr.ins 0 1 0 9).wellFormed stateFull.cfg = true ∧
      (⟨[false, false], 0⟩ : Entry) ∈ stateFull.table 0 ∧ [false, false] = codeword 2 0 ∧
      [false, false] <+: codeword 3 0 ∧ codeword 1 0 <+: [false, false] := by decide

theorem witness_InsIntoFullTableRaisesTableFull :
    Ready stateFull ∧ (Instr.ins 0 2 2 2).wellFormed stateFull.cfg = true ∧
      (∀ e ∈ stateFull.table 0, ¬ e.code <+: codeword 2 2 ∧ ¬ codeword 2 2 <+: e.code) ∧
      entries (stateFull.table 0) = stateFull.cfg.maxEntries := by decide

theorem witness_BadTableRaisesItsFault :
    Ready stateFull ∧ stateFull.cfg.tableCount ≤ (1 : BitVec 4).toNat ∧
      stateFull.cfg.tableCount ≤ (15 : BitVec 4).toNat := by decide

/-- Each clause at the first length it refuses. -/
theorem witness_BadLengthRaisesItsFault :
    Ready stateTS ∧ (0 : BitVec 4).toNat < stateTS.cfg.tableCount ∧ (0 : BitVec 8).toNat = 0 ∧
      16 < (17 : BitVec 8).toNat := by decide

theorem witness_BadCodeRaisesItsFault :
    Ready stateTS ∧ (0 : BitVec 4).toNat < stateTS.cfg.tableCount ∧ 1 ≤ (2 : BitVec 8).toNat ∧
      (2 : BitVec 8).toNat ≤ 16 ∧ 2 ^ (2 : BitVec 8).toNat ≤ (4 : BitVec 16).toNat := by decide

theorem witness_TableLoadFrame :
    (∃ u, exec (.ins 0 4 15 6) stateTS = .next u ∧ u.resStatus = .ok) ∧
      (∃ u, exec (.ins 0 1 0 6) stateTS = .next u ∧ u.resStatus = .fault) ∧
      ∃ u, exec (.clr 0) stateTS = .next u ∧ u.resStatus = .ok :=
  ⟨⟨_, rfl, by decide⟩, ⟨_, rfl, by decide⟩, _, rfl, by decide⟩

theorem witness_DecReturnsTheSymbolOfItsCodeword :
    Ready (offering [.bit1, .bit0, .bit1, .bit0]) ∧
      (0 : BitVec 4).toNat < (offering [.bit1, .bit0, .bit1, .bit0]).cfg.tableCount ∧
      TableWf (offering [.bit1, .bit0, .bit1, .bit0]).cfg.maxEntries ((offering [.bit1, .bit0, .bit1, .bit0]).table 0) ∧
      (⟨[true, false, true], 3⟩ : Entry) ∈ (offering [.bit1, .bit0, .bit1, .bit0]).table 0 ∧
      (offering [.bit1, .bit0, .bit1, .bit0]).tokens = bitTokens [true, false, true] ++ [.bit0] := by decide

/-- At the root, no bit taken. -/
theorem witness_DecEndsWithNoneAtEndOfStream_1 :
    Ready (offering [.eos]) ∧ (0 : BitVec 4).toNat < (offering [.eos]).cfg.tableCount ∧
      TableWf (offering [.eos]).cfg.maxEntries ((offering [.eos]).table 0) ∧
      (⟨[true, true, true, false], 5⟩ : Entry) ∈ (offering [.eos]).table 0 ∧
      [] <+: [true, true, true, false] ∧ [] ≠ [true, true, true, false] ∧
      (offering [.eos]).tokens = bitTokens [] ++ [.eos] := by decide

/-- One bit before a leaf. -/
theorem witness_DecEndsWithNoneAtEndOfStream_2 :
    Ready (offering [.bit1, .bit1, .bit1, .eos]) ∧ (0 : BitVec 4).toNat < (offering [.bit1, .bit1, .bit1, .eos]).cfg.tableCount ∧
      TableWf (offering [.bit1, .bit1, .bit1, .eos]).cfg.maxEntries ((offering [.bit1, .bit1, .bit1, .eos]).table 0) ∧
      (⟨[true, true, true, false], 5⟩ : Entry) ∈ (offering [.bit1, .bit1, .bit1, .eos]).table 0 ∧
      [true, true, true] <+: [true, true, true, false] ∧ [true, true, true] ≠ [true, true, true, false] ∧
      (offering [.bit1, .bit1, .bit1, .eos]).tokens = bitTokens [true, true, true] ++ [.eos] := by decide

theorem witness_DecOffTheTreeRaisesInvalidCode :
    Ready (offering [.bit1, .bit1, .bit1, .bit1]) ∧
      (0 : BitVec 4).toNat < (offering [.bit1, .bit1, .bit1, .bit1]).cfg.tableCount ∧
      TableWf (offering [.bit1, .bit1, .bit1, .bit1]).cfg.maxEntries ((offering [.bit1, .bit1, .bit1, .bit1]).table 0) ∧
      (⟨[true, true, true, false], 5⟩ : Entry) ∈ (offering [.bit1, .bit1, .bit1, .bit1]).table 0 ∧
      [true, true, true] <+: [true, true, true, false] ∧ [true, true, true] ≠ [true, true, true, false] ∧
      (∀ e ∈ (offering [.bit1, .bit1, .bit1, .bit1]).table 0, ¬ ([true, true, true] ++ [true]) <+: e.code) ∧
      (offering [.bit1, .bit1, .bit1, .bit1]).tokens = bitTokens ([true, true, true] ++ [true]) ++ [] := by decide

theorem witness_DecOnEmptyTableRaisesEmptyTable :
    Ready stateTS ∧ (1 : BitVec 4).toNat < stateTS.cfg.tableCount ∧ entries (stateTS.table 1) = 0 := by decide

theorem witness_DecWaitsAtAnInternalNode :
    Ready (offering [.bit1]) ∧ (0 : BitVec 4).toNat < (offering [.bit1]).cfg.tableCount ∧ TableWf (offering [.bit1]).cfg.maxEntries ((offering [.bit1]).table 0) ∧
      (⟨[true, false, false], 2⟩ : Entry) ∈ (offering [.bit1]).table 0 ∧ [true] <+: [true, false, false] ∧
      [true] ≠ [true, false, false] ∧ (offering [.bit1]).tokens = bitTokens [true] := by decide

/-- A `DEC` that ends, and one offered sixteen tokens. -/
theorem witness_DecIsBoundedAndEndsByName :
    (Inv (offering [.bit0, .bit1]) ∧ Ready (offering [.bit0, .bit1]) ∧
      ∃ u, exec (.dec 0) (offering [.bit0, .bit1]) = .next u ∧ u.inFlight = none) ∧
    (Inv (offering (List.replicate 16 .bit1)) ∧ Ready (offering (List.replicate 16 .bit1)) ∧
      16 ≤ (offering (List.replicate 16 .bit1)).tokens.length ∧
      ∃ u, exec (.dec 0) (offering (List.replicate 16 .bit1)) = .next u ∧ u.inFlight = none) :=
  ⟨⟨inv_of (by decide) (by decide) (by decide) (by decide) (by decide), by decide, _, rfl, by decide⟩,
    inv_of (by decide) (by decide) (by decide) (by decide) (by decide), by decide, by decide, _, rfl, by decide⟩

/-- A block whose other table and bit count differ from `offering`'s. -/
def offeringOther (toks : List Token) : State :=
  { stateTS with tables := [tableTS, [⟨[true], 7⟩]], bitcnt := 40, tokens := toks }

/-- An outcome OK. -/
theorem witness_DecDependsOnItsTableAndTokensOnly_1 :
    Ready (offering [.bit0, .bit1]) ∧ Ready (offeringOther [.bit0, .bit1]) ∧
      (offering [.bit0, .bit1]).cfg = (offeringOther [.bit0, .bit1]).cfg ∧
      (offering [.bit0, .bit1]).table 0 = (offeringOther [.bit0, .bit1]).table 0 ∧
      (offering [.bit0, .bit1]).tokens = (offeringOther [.bit0, .bit1]).tokens ∧
      (∃ u, exec (.dec 0) (offering [.bit0, .bit1]) = .next u ∧ u.inFlight = none) ∧
      ∃ u, exec (.dec 0) (offeringOther [.bit0, .bit1]) = .next u :=
  ⟨by decide, by decide, by decide, by decide, by decide, ⟨_, rfl, by decide⟩, _, rfl⟩

/-- An outcome INVALID_CODE. -/
theorem witness_DecDependsOnItsTableAndTokensOnly_2 :
    (∃ u, exec (.dec 0) (offering (List.replicate 4 .bit1)) = .next u ∧ u.fault = true) ∧
      ∃ u, exec (.dec 0) (offeringOther (List.replicate 4 .bit1)) = .next u :=
  ⟨⟨_, rfl, by decide⟩, _, rfl⟩

/-- The widest read. -/
theorem witness_RcvReturnsTheValueOfItsBits :
    Ready (offering (List.replicate 16 .bit1)) ∧ (16 : BitVec 8).toNat ≤ 16 ∧
      (List.replicate 16 true).length = (16 : BitVec 8).toNat ∧
      (offering (List.replicate 16 .bit1)).tokens = bitTokens (List.replicate 16 true) ++ [] := by decide

theorem witness_RcvxReturnsTheExtendedValueOfItsBits :
    Ready (offering [.bit0, .bit1, .bit0]) ∧ (3 : BitVec 8).toNat ≤ 16 ∧
      [false, true, false].length = (3 : BitVec 8).toNat ∧
      (offering [.bit0, .bit1, .bit0]).tokens = bitTokens [false, true, false] ++ [] := by decide

theorem witness_RawReadOfWidthZeroTakesNoBit : Ready (offering [.bit1]) := by decide

/-- No bit taken. -/
theorem witness_RawReadEndsWithNoneAtEndOfStream_1 :
    Ready (offering [.eos]) ∧ (3 : BitVec 8).toNat ≤ 16 ∧ ([] : Bits).length < (3 : BitVec 8).toNat ∧
      (offering [.eos]).tokens = bitTokens [] ++ [.eos] := by decide

/-- One bit short of the width. -/
theorem witness_RawReadEndsWithNoneAtEndOfStream_2 :
    Ready (offering [.bit1, .bit1, .eos]) ∧ (3 : BitVec 8).toNat ≤ 16 ∧ ([true, true] : Bits).length < (3 : BitVec 8).toNat ∧
      (offering [.bit1, .bit1, .eos]).tokens = bitTokens [true, true] ++ [.eos] := by decide

theorem witness_RawReadWaitsWithItsPartialValue :
    Ready (offering [.bit1, .bit0]) ∧ (16 : BitVec 8).toNat ≤ 16 ∧ [true, false].length < (16 : BitVec 8).toNat ∧
      (offering [.bit1, .bit0]).tokens = bitTokens [true, false] := by decide

theorem witness_RcvResultIsBelowTwoToTheWidth :
    ∃ u, exec (.rcv 3) { stateTS with tokens := List.replicate 3 .bit1 } = .next u ∧ u.inFlight = none ∧
      u.resStatus = .ok := ⟨_, rfl, by decide, by decide⟩

theorem witness_ExtendHasTheValuesOfR120 : 1 ≤ 1 ∧ 1 ≤ 16 ∧ 16 ≤ 16 ∧ 2 ^ 16 - 1 < 2 ^ 16 := by decide

theorem witness_RcvxResultIsInItsRange :
    1 ≤ (1 : BitVec 8).toNat ∧
      ∃ u, exec (.rcvx 1) { stateTS with tokens := [.bit0] } = .next u ∧ u.inFlight = none ∧ u.resStatus = .ok :=
  ⟨by decide, _, rfl, by decide, by decide⟩

theorem witness_BitReadFrame :
    (∃ u, exec (.dec 0) { stateTS with tokens := [.bit0, .bit1] } = .next u ∧ u.resStatus ≠ .fault) ∧
      (∃ u, exec (.rcv 1) { stateTS with tokens := [.eos] } = .next u ∧ u.resStatus ≠ .fault) ∧
      ∃ u, exec (.rcvx 1) { stateTS with tokens := [.bit0] } = .next u ∧ u.resStatus ≠ .fault :=
  ⟨⟨_, rfl, by decide⟩, ⟨_, rfl, by decide⟩, _, rfl, by decide⟩

theorem witness_AckClearsTheFaultAndNothingElse : stateFaulted.inFlight = none ∧ stateTS.inFlight = none := by decide

theorem witness_FaultIsStickyUntilAckOrReset :
    Inv { stateFaulted with cmds := [0x0300000000000000] } ∧ stateFaulted.fault = true ∧ stateFaulted.rst = false ∧
      { stateFaulted with cmds := [0x0300000000000000] }.cmds.head? ≠ some ackWord ∧
      ∃ u, step { stateFaulted with cmds := [0x0300000000000000] } = .next u :=
  ⟨inv_of (by decide) (by decide) (by decide) (by decide) (by decide), by decide, by decide, by decide, _, rfl⟩

theorem witness_BitcntCountsTheBitsTaken :
    ∃ u, step { stateWalking with tokens := [.bit0, .bit1, .bit1] } = .next u ∧ u.tokens = [.bit1] :=
  ⟨_, rfl, by decide⟩

theorem witness_BitcntCountsTheBitsTaken_reset :
    { stateWalking with rst := true }.rst = true ∧ ∃ u, step { stateWalking with rst := true } = .next u := ⟨rfl, _, rfl⟩

theorem witness_NoneEndsTheCommandAtOnce :
    ∃ u, step { stateWalking with tokens := [.bit0, .eos, .bit1] } = .next u ∧ u.tokens = [.bit1] :=
  ⟨_, rfl, by decide⟩

theorem witness_BitAccounting :
    (Inv stateWalking ∧ stateWalking.inFlight ≠ none ∧ ∃ u, step stateWalking = .next u ∧ u.inFlight ≠ none) ∧
      Inv (holding 0x0400000000000000) ∧ (holding 0x0400000000000000).cmds ≠ [] ∧
      ∃ u, step (holding 0x0400000000000000) = .next u ∧ u.inFlight = none :=
  ⟨⟨inv_stateWalking, by decide, _, rfl, by decide⟩,
    inv_of (by decide) (by decide) (by decide) (by decide) (by decide), by decide, _, rfl, by decide⟩

/-- A command that still waits. -/
theorem witness_WaitingCommandShowsBitcntOnly_1 :
    stateReading.rst = false ∧ ∃ u, step stateReading = .next u ∧ u.inFlight ≠ none := ⟨rfl, _, rfl, by decide⟩

/-- A command that completes in the step while a word is on the command port. -/
theorem witness_WaitingCommandShowsBitcntOnly_2 :
    stateReading.inFlight ≠ none ∧ stateReading.rst = false ∧
      ∃ u, step { stateReading with tokens := [.bit1], cmds := [0x0100000000000000] } = .next u ∧ u.inFlight = none :=
  ⟨by decide, rfl, _, rfl, by decide⟩

theorem witness_ResumedCommandEndsAsIfAllTokensWereThere :
    stateTS.rst = false ∧ ∃ t, exec (.dec 0) { stateTS with tokens := [.bit1] } = .next t ∧ t.inFlight ≠ none :=
  ⟨by decide, _, rfl, by decide⟩

theorem witness_SixteenTokensCompleteEveryCommand :
    Inv (offering (List.replicate 16 .bit1)) ∧ (offering (List.replicate 16 .bit1)).inFlight = none ∧
      16 ≤ (offering (List.replicate 16 .bit1)).tokens.length :=
  ⟨inv_of (by decide) (by decide) (by decide) (by decide) (by decide), by decide, by decide⟩

/-- The three outcomes: no change, a `CLR` and an `INS`. -/
theorem witness_EntriesChangeByClrAndInsOnly :
    (∃ u, step stateWalking = .next u ∧ entries (u.table 0) = 6) ∧
      (∃ u, step (holding 0x0100000000000000) = .next u ∧ entries (u.table 0) = 0) ∧
      ∃ u, step (holding 0x020004060000000F) = .next u ∧ entries (u.table 0) = 7 :=
  ⟨⟨_, rfl, by decide⟩, ⟨_, rfl, by decide⟩, _, rfl, by decide⟩

theorem witness_ConfigurationNeverChanges : ∃ u, step { stateWalking with rst := true } = .next u := ⟨_, rfl⟩

/-- Both edges of each reserved range, and both sides of TABLE_COUNT. -/
theorem witness_ReadMapIsThatOfR36 :
    stateTS.cfg.Conforming ∧ 0x14 ≤ (0x14 : BitVec 8).toNat ∧ (0x3F : BitVec 8).toNat < 0x40 ∧
      0x80 ≤ (0x80 : BitVec 8).toNat ∧ (1 : BitVec 4).toNat < stateTS.cfg.tableCount ∧
      ¬ (2 : BitVec 4).toNat < stateTS.cfg.tableCount := by decide

theorem witness_SameMapIsTheSameTable : TableWf 8 tableTS := by decide

theorem witness_TreeViewAgreesWithTheMap : TableWf 6 tableTS ∧ TableWf 1 [] := by decide

theorem witness_LoadTabBuildsExactlyItsMap :
    stateTS.rst = false ∧ Ready stateTS ∧ stateTS.tables.length = stateTS.cfg.tableCount ∧
      (1 : BitVec 4).toNat < stateTS.cfg.tableCount ∧
      loadTab 1 [⟨2, 0, 9⟩] = some [.clr 1, .ins 1 2 0 9] ∧
      ∃ u : State, core.run 2 { stateTS with cmds := [.clr 1, .ins 1 2 0 9].map encode ++ [0x0600000000000000] } = .next u ∧
        u.fault = false :=
  ⟨by decide, by decide, by decide, by decide, by decide, _, rfl, rfl⟩

/-- An ordinary byte, a stuffed 0xFF, and a 0xFF before a marker. -/
theorem witness_RefSourceDeliversAByteMsbFirst :
    (RefSource.start [0xA5]).markerFfBitsDelivered = true ∧ (RefSource.start [0xA5]).exhausted = false ∧
      (RefSource.start [0xA5]).k = 0 ∧ (RefSource.start [0xA5]).buf[0]? = some 0xA5 ∧ (0xA5 : Byte) ≠ 0xFF ∧
      (RefSource.start [0xFF, 0x00]).buf[0]? = some 0xFF ∧ (RefSource.start [0xFF, 0x00]).buf[1]? = some 0 ∧
      (RefSource.start [0xFF, 0xD9]).buf[1]? ≠ some 0 := by decide

end Sys2Proof.Tests
end

section
/-! The reset state and what every step keeps or counts (spec/10_state.md): the configuration, the fault record, and `BITCNT`. -/

namespace Sys2Proof.Machine

/-! ### The reset state (R45) -/

/-- Every table of the reset state is empty, also one the build does not have. -/
@[simp] theorem resetWith_table (cfg : Config) (t : BitVec 4) : (State.resetWith cfg).table t = [] := by
  rcases Nat.lt_or_ge t.toNat cfg.tableCount with h | h <;> simp [State.table, State.resetWith, h]

theorem tblcntWord_of_table_nil {s : State} {t : BitVec 4} (h : s.table t = []) : tblcntWord s t = 0 := by
  simp [tblcntWord, h, entries]

/-- Settles O1: the tables by `resetWith_table`, every other value as `State.resetWith` writes it. -/
theorem resetLeavesTheValuesOfR45 : Obligations.ResetLeavesTheValuesOfR45 := by
  intro cfg t c
  have htab := resetWith_table cfg t
  refine ⟨by rw [htab, lookup_nil], by rw [htab]; rfl, tblcntWord_of_table_nil htab, ?_⟩
  exact ⟨rfl, rfl, rfl, rfl, rfl, rfl, rfl, rfl, rfl⟩

/-! ### The configuration (R43) -/

theorem carried_cfg {s u : State} {d : Decoded} (h : Carried s d u) : u.cfg = s.cfg := by
  cases h with
  | rejected | acknowledged | raised | cleared | inserted => rfl
  | walked => exact (serve_sameStore s.tokens _).cfg
  | read | readExtended => exact ((rawAt_sameStore ..).trans (serve_sameStore s.tokens _)).cfg

theorem step_cfg {s u : State} (h : step s = .next u) : u.cfg = s.cfg := by
  rcases step_cases h with ⟨-, rfl⟩ | ⟨-, -, rfl⟩ | ⟨-, -, -, rfl⟩ | ⟨w, rest, -, -, -, hc⟩
  · exact resetBlock_cfg s
  · exact (serve_sameStore s.tokens s).cfg
  · rfl
  · exact (carried_cfg hc :)

theorem readReg_config (s : State) : readReg s 0x10 = configWord s := rfl

theorem configWord_congr {s u : State} (h : u.cfg = s.cfg) : configWord u = configWord s := by
  rw [configWord, configWord, h]

/-- Settles O53: no step changes `cfg`, and `CONFIG` reads nothing else. -/
theorem configurationNeverChanges : Obligations.ConfigurationNeverChanges := by
  intro s u h
  have hcfg := step_cfg h
  exact ⟨hcfg, by rw [readReg_config, readReg_config, configWord_congr hcfg]⟩

/-! ### One word spells each command (R80), the exact `ACK` word (R123) -/

/-- A word whose unused and reserved fields are zero is the word of its operands. -/
theorem encode_operands {w : CmdWord} {op : Op} (hop : opField w = op.code) (hr : reservedFieldSet w = false)
    (hu : unusedFieldSet op w = false) : encode (operands w op) = w := by
  simp only [reservedFieldSet, Bool.or_eq_false_iff, bne_eq_false_iff_eq] at hr
  obtain ⟨hrsv1, hrsv2⟩ := hr
  have hw := packWord_fields w
  rw [hop, hrsv1, hrsv2] at hw
  cases op <;> simp_all [unusedFieldSet, Op.uses, encode, operands]

theorem encode_of_decode {w : CmdWord} {i : Instr} (h : decode w = .command i) : encode i = w := by
  unfold decode at h
  split at h
  · cases h
  · rename_i op hop
    split at h
    · cases h
    · rename_i hz
      simp only [Bool.or_eq_true, not_or, Bool.not_eq_true] at hz
      obtain ⟨hr, hu⟩ := hz
      cases h
      exact encode_operands (code_of_opOf hop) hr hu

/-- The only word that decodes to `ACK` is the exact one. -/
theorem eq_ackWord_of_decode {w : CmdWord} (h : decode w = .command .ack) : w = ackWord :=
  calc w = encode .ack := (encode_of_decode h).symm
    _ = ackWord := by decide

/-! ### A recorded fault (R28) -/

/-- No command waits in a faulted block (R42). -/
theorem inFlight_eq_none_of_fault {s : State} (h : Inv s) (hf : s.fault = true) : s.inFlight = none := by
  have hwf := h.inFlight
  rcases hi : s.inFlight with _ | ⟨t, p⟩ | ⟨ext, n, taken, value⟩
  · rfl
  · simp [inFlightWf, hi, hf] at hwf
  · simp [inFlightWf, hi, hf] at hwf

/-- A faulted block rejects every word but `ACK` (R126). -/
theorem carried_of_fault {s u : State} {d : Decoded} (h : Carried s d u) (hf : s.fault = true)
    (hd : d ≠ .command .ack) : u = complete .rejected 0 0 s := by
  cases h with
  | rejected => rfl
  | acknowledged => exact absurd rfl hd
  | raised _ _ hnf | cleared _ hnf | inserted _ _ _ _ hnf | walked _ hnf | read _ hnf | readExtended _ hnf =>
    simp [hf] at hnf

/-- Settles O45: a faulted block has no command in progress, so a step waits unchanged or rejects a word. -/
theorem faultIsStickyUntilAckOrReset : Obligations.FaultIsStickyUntilAckOrReset := by
  intro s u hinv hf hrst hack h
  have hidle := inFlight_eq_none_of_fault hinv hf
  rcases step_cases h with ⟨hr, -⟩ | ⟨-, ⟨c, hc⟩, -⟩ | ⟨-, -, -, rfl⟩ | ⟨w, rest, -, -, hcmds, hc⟩
  · simp [hrst] at hr
  · simp [hidle] at hc
  · exact ⟨hf, rfl, rfl, rfl, rfl⟩
  · have hne : w ≠ ackWord := by simpa [hcmds] using hack
    obtain rfl := carried_of_fault hc hf fun hd => hne (eq_ackWord_of_decode hd)
    exact ⟨hf, rfl, rfl, rfl, rfl⟩

/-! ### The bits taken (R34) -/

/-- How many of these tokens carry a bit (R47). -/
def bitCount (toks : List Token) : Nat := (toks.filter (· ≠ Token.eos)).length

theorem bitCount_cons (tok : Token) (toks : List Token) :
    bitCount (tok :: toks) = bitCount [tok] + bitCount toks := by
  cases tok <;> simp [bitCount, Nat.add_comm]

/-- `u` has taken the first of the tokens offered, leaves the rest, and has counted in `BITCNT` those that carry a bit. -/
def TakesFirstOf (toks : List Token) (s u : State) : Prop :=
  ∃ k, k ≤ toks.length ∧ u.tokens = toks.drop k ∧ u.bitcnt = s.bitcnt + BitVec.ofNat 32 (bitCount (toks.take k))

theorem TakesFirstOf.nothing {toks : List Token} {s u : State} (ht : u.tokens = toks) (hb : u.bitcnt = s.bitcnt) :
    TakesFirstOf toks s u :=
  ⟨0, Nat.zero_le _, ht, by simp [hb, bitCount]⟩

/-- A command in progress counts the token it takes. -/
theorem tokenEffect_bitcnt {c : InFlight} {tok : Token} {s u : State} (h : TokenEffect c s tok u) :
    u.bitcnt = s.bitcnt + BitVec.ofNat 32 (bitCount [tok]) := by
  have hbit : ∀ b : Bool, bitCount [Token.ofBit b] = 1 := by decide
  cases h with
  | ended => simp [bitCount]
  | leaf | inner | off | full | partly => simp [hbit]

theorem serve_takesFirstOf : ∀ (toks : List Token) (s : State), TakesFirstOf toks s (serve toks s)
  | [], s => .nothing rfl rfl
  | tok :: rest, s => by
    rcases idle_or_waiting s with hi | ⟨c, hi⟩
    · rw [serve_idle _ hi]
      exact .nothing rfl rfl
    · obtain ⟨k, hk, htok, hbit⟩ := serve_takesFirstOf rest (takeToken c tok s)
      rw [serve_cons _ _ hi]
      refine ⟨k + 1, Nat.succ_le_succ hk, htok, ?_⟩
      rw [hbit, tokenEffect_bitcnt (takeToken_effect c tok s), List.take_succ_cons, bitCount_cons tok (rest.take k), BitVec.ofNat_add, BitVec.add_assoc]

theorem rawAt_bitcnt (ext : Bool) (n taken value : Nat) (s : State) :
    (rawAt ext n taken value s).bitcnt = s.bitcnt := by
  rcases rawAt_cases ext n taken value s with ⟨_, h⟩ | ⟨_, h⟩ <;> rw [h]
  rfl

/-- A raw read that begins has counted nothing yet. -/
theorem serve_rawAt_takesFirstOf (toks : List Token) (ext : Bool) (n taken value : Nat) (s : State) :
    TakesFirstOf toks s (serve toks (rawAt ext n taken value s)) := by
  have h := serve_takesFirstOf toks (rawAt ext n taken value s)
  rwa [TakesFirstOf, rawAt_bitcnt] at h

theorem carried_takesFirstOf {s u : State} {d : Decoded} (h : Carried s d u) : TakesFirstOf s.tokens s u := by
  cases h with
  | rejected | acknowledged | raised | cleared | inserted => exact .nothing rfl rfl
  | walked t => exact serve_takesFirstOf s.tokens { s with inFlight := some (.walk t []) }
  | read | readExtended => exact serve_rawAt_takesFirstOf ..

theorem step_takesFirstOf {s u : State} (hr : s.rst = false) (h : step s = .next u) : TakesFirstOf s.tokens s u := by
  rcases step_cases h with ⟨hr', -⟩ | ⟨-, -, rfl⟩ | ⟨-, -, -, rfl⟩ | ⟨w, rest, -, -, -, hc⟩
  · simp [hr] at hr'
  · exact serve_takesFirstOf s.tokens s
  · exact .nothing rfl rfl
  · exact (carried_takesFirstOf hc :)

theorem step_rst {s : State} (hr : s.rst = true) : step s = .next (resetBlock s) := by
  simp [step, hr]

theorem readReg_bitcnt (s : State) : readReg s 0x0C = s.bitcnt := rfl

/-- Settles O46: reset clears `BITCNT`, and every other step takes the first of the tokens offered and counts them. -/
theorem bitcntCountsTheBitsTaken : Obligations.BitcntCountsTheBitsTaken := by
  intro s u h
  refine ⟨readReg_bitcnt u, fun hr => ?_, fun hr => step_takesFirstOf hr h⟩
  rw [step_rst hr] at h
  cases h
  exact resetBlock_bitcnt s

end Sys2Proof.Machine
end

section
/-! The end of the bit stream (spec/20_memory.md): a `NONE` token ends the command that takes it (R53). -/

namespace Sys2Proof.Machine

/-- `u` shows a command that ended with `NONE`, and the fault record of `s` (R53, R142). -/
def EndedWithNone (s u : State) : Prop :=
  u.inFlight = none ∧ u.resStatus = .none ∧ u.resValue = 0 ∧ u.fault = s.fault ∧ u.cause = s.cause

/-- `u` has taken the first of the tokens offered, a `NONE` only as the last of them, and that ended the command. -/
def NoneIsLastTaken (toks : List Token) (s u : State) : Prop :=
  ∃ k, u.tokens = toks.drop k ∧ ∀ j, j < k → toks[j]? = some Token.eos → j + 1 = k ∧ EndedWithNone s u

theorem NoneIsLastTaken.nothing {toks : List Token} {s u : State} (ht : u.tokens = toks) : NoneIsLastTaken toks s u :=
  ⟨0, ht, fun j hj => absurd hj j.not_lt_zero⟩

/-- One token taken: it is the last, and ends the command if it is a `NONE`. -/
theorem NoneIsLastTaken.one {tok : Token} {rest : List Token} {s u : State} (ht : u.tokens = rest)
    (hend : tok = .eos → EndedWithNone s u) : NoneIsLastTaken (tok :: rest) s u := by
  refine ⟨1, ht, fun j hj hnone => ?_⟩
  obtain rfl := Nat.lt_one_iff.1 hj
  exact ⟨rfl, hend (by simpa using hnone)⟩

/-- A bit taken before the others, which leaves the fault record to them. -/
theorem NoneIsLastTaken.afterBit {tok : Token} {rest : List Token} {s t u : State} (htok : tok ≠ .eos)
    (hf : t.fault = s.fault) (hc : t.cause = s.cause) (h : NoneIsLastTaken rest t u) :
    NoneIsLastTaken (tok :: rest) s u := by
  obtain ⟨k, htokens, hlast⟩ := h
  refine ⟨k + 1, htokens, fun j hj hnone => ?_⟩
  cases j with
  | zero => exact absurd (by simpa using hnone) htok
  | succ j =>
    obtain ⟨hk, hend⟩ := hlast j (Nat.lt_of_succ_lt_succ hj) (by simpa using hnone)
    rw [EndedWithNone, hf, hc] at hend
    exact ⟨congrArg (· + 1) hk, hend⟩

theorem takeToken_eos_ended (c : InFlight) (s : State) : EndedWithNone s (takeToken c .eos s) :=
  ⟨rfl, rfl, rfl, rfl, rfl⟩

/-- A command that still waits after a token took a bit, and has raised no fault. -/
theorem tokenEffect_waiting {c c' : InFlight} {tok : Token} {s u : State} (h : TokenEffect c s tok u)
    (hw : u.inFlight = some c') : tok ≠ .eos ∧ u.fault = s.fault ∧ u.cause = s.cause := by
  have hbit : ∀ b : Bool, Token.ofBit b ≠ .eos := by decide
  cases h with
  | ended | leaf | off | full => simp at hw
  | inner b | partly b => exact ⟨hbit b, rfl, rfl⟩

theorem serve_noneIsLastTaken : ∀ (toks : List Token) (s : State), NoneIsLastTaken toks s (serve toks s)
  | [], s => .nothing rfl
  | tok :: rest, s => by
    rcases idle_or_waiting s with hi | ⟨c, hi⟩
    · rw [serve_idle _ hi]
      exact .nothing rfl
    · rw [serve_cons _ _ hi]
      rcases idle_or_waiting (takeToken c tok s) with hdone | ⟨c', hwait⟩
      · rw [serve_idle _ hdone]
        refine .one rfl ?_
        rintro rfl
        exact takeToken_eos_ended c s
      · obtain ⟨htok, hf, hc⟩ := tokenEffect_waiting (takeToken_effect c tok s) hwait
        exact .afterBit htok hf hc (serve_noneIsLastTaken rest _)

theorem rawAt_record (ext : Bool) (n taken value : Nat) (s : State) :
    (rawAt ext n taken value s).fault = s.fault ∧ (rawAt ext n taken value s).cause = s.cause := by
  rcases rawAt_cases ext n taken value s with ⟨_, h⟩ | ⟨_, h⟩ <;> rw [h] <;> exact ⟨rfl, rfl⟩

/-- A raw read that begins raises nothing before its first token. -/
theorem serve_rawAt_noneIsLastTaken (toks : List Token) (ext : Bool) (n taken value : Nat) (s : State) :
    NoneIsLastTaken toks s (serve toks (rawAt ext n taken value s)) := by
  have h := serve_noneIsLastTaken toks (rawAt ext n taken value s)
  obtain ⟨hf, hc⟩ := rawAt_record ext n taken value s
  simpa only [NoneIsLastTaken, EndedWithNone, hf, hc] using h

theorem carried_noneIsLastTaken {s u : State} {d : Decoded} (h : Carried s d u) : NoneIsLastTaken s.tokens s u := by
  cases h with
  | rejected | acknowledged | raised | cleared | inserted => exact .nothing rfl
  | walked t => exact serve_noneIsLastTaken s.tokens { s with inFlight := some (.walk t []) }
  | read | readExtended => exact serve_rawAt_noneIsLastTaken ..

/-- Settles O47: a `NONE` leaves no command in progress, so no token is served after it, and a token before it that left
the command waiting raised no fault. -/
theorem noneEndsTheCommandAtOnce : Obligations.NoneEndsTheCommandAtOnce := by
  intro s u hr h
  rcases step_cases h with ⟨hr', -⟩ | ⟨-, -, rfl⟩ | ⟨-, -, -, rfl⟩ | ⟨w, rest, -, -, -, hc⟩
  · simp [hr] at hr'
  · exact serve_noneIsLastTaken s.tokens s
  · exact NoneIsLastTaken.nothing rfl
  · exact (carried_noneIsLastTaken hc :)

end Sys2Proof.Machine
end

section
/-! The command word as a number (spec/30_encoding.md R71). -/

namespace Sys2Proof.Machine

/-- Bits put on the left weigh two to the width of what stands on their right. -/
theorem toNat_append_eq_mul_add {m n : Nat} (x : BitVec m) (y : BitVec n) :
    (x ++ y).toNat = x.toNat * 2 ^ n + y.toNat := by
  rw [BitVec.toNat_append, ← Nat.shiftLeft_add_eq_or_of_lt y.isLt, Nat.shiftLeft_eq]

/-- Settles O14: `packWord` appends the fields, and each weighs two to the widths of the fields after it. -/
theorem wordIsTheFormulaOfItsFields : Obligations.WordIsTheFormulaOfItsFields := by
  intro op tbl rsv1 len sym rsv2 code
  simp only [packWord, toNat_append_eq_mul_add, Nat.add_assoc]

end Sys2Proof.Machine
end

section
/-! The table load commands (spec/40_table_load.md): the faults of `INS` (R93, R96), and what `CLR` and `INS` leave unchanged
(R97, R99). -/

namespace Sys2Proof.Machine

/-! ### The faults of INS -/

/-- A fault taken while no command is in progress writes the fault record and the result registers, nothing else (R135). -/
theorem raise_idle {s : State} (c : Cause) (n : Nat) (h : s.inFlight = none) :
    raise c n s =
      { s with fault := true, cause := c.code, resStatus := .fault, resNbits := BitVec.ofNat 5 n, resValue := 0 } := by
  cases s
  cases h
  rfl

theorem insertCode_of_conflict {t : BitVec 4} {cw : Bits} {s : State} (sym : Symbol)
    (h : conflicts (s.table t) cw = true) : insertCode t cw sym s = raise .codeConflict 0 s := by
  rw [insertCode, if_pos h]

theorem insertCode_of_full {t : BitVec 4} {cw : Bits} {s : State} (sym : Symbol)
    (hc : conflicts (s.table t) cw = false) (hm : s.cfg.maxEntries ≤ entries (s.table t)) :
    insertCode t cw sym s = raise .tableFull 0 s := by
  simp [insertCode, hc, hm]

/-- Settles O21: an equal codeword also begins the other, so each of the three cases is a conflict, which is checked first. -/
theorem insConflictRaisesCodeConflict : Obligations.InsConflictRaisesCodeConflict := by
  intro s t len code sym e hready hw he hcase
  have hpre : e.code <+: codeword len code ∨ codeword len code <+: e.code := by
    rcases hcase with heq | hpre
    · exact .inl (heq ▸ List.prefix_rfl)
    · exact hpre
  have hconf := conflicts_eq_true_iff.2 ⟨e, he, hpre⟩
  rw [exec_ins_ready hready hw, insertCode_of_conflict sym hconf, raise_idle _ _ hready.1]
  rfl

/-- Settles O22: the conflict check passes, and the room check, which comes next, does not. -/
theorem insIntoFullTableRaisesTableFull : Obligations.InsIntoFullTableRaisesTableFull := by
  intro s t len code sym hready hw hno hfull
  have hconf := conflicts_eq_false_iff.2 hno
  rw [exec_ins_ready hready hw, insertCode_of_full sym hconf hfull.ge, raise_idle _ _ hready.1]
  rfl

/-! ### The frame of CLR and INS -/

/-- A command that loads table `t` (R89, R92). -/
inductive IsLoad (t : BitVec 4) : Instr → Prop where
  | clr : IsLoad t (.clr t)
  | ins (len : BitVec 8) (code : BitVec 16) (sym : Symbol) : IsLoad t (.ins t len code sym)

/-- What a load of table `t` leaves of `s` in `u` (R97, R99). -/
structure LoadKeeps (t : BitVec 4) (s u : State) : Prop where
  tables   : u.resStatus ≠ .ok → u.tables = s.tables
  others   : ∀ t', t' ≠ t → u.table t' = s.table t'
  count    : u.tables.length = s.tables.length
  bitcnt   : u.bitcnt = s.bitcnt
  tokens   : u.tokens = s.tokens
  inFlight : u.inFlight = s.inFlight
  cfg      : u.cfg = s.cfg
  cmds     : u.cmds = s.cmds
  rst      : u.rst = s.rst
  record   : u.resStatus ≠ .fault → u.fault = s.fault ∧ u.cause = s.cause

theorem rejected_loadKeeps {s : State} (t : BitVec 4) (h : s.inFlight = none) :
    LoadKeeps t s (complete .rejected 0 0 s) := by
  constructor <;> simp [h]

theorem raise_loadKeeps {s : State} (t : BitVec 4) (c : Cause) (h : s.inFlight = none) :
    LoadKeeps t s (raise c 0 s) := by
  constructor <;> simp [h]

/-- `CLR` and `INS` write one table and complete `OK`. -/
theorem write_loadKeeps {s : State} (t : BitVec 4) (tab : Table) (h : s.inFlight = none) :
    LoadKeeps t s (complete .ok 0 0 (s.setTable t tab)) where
  tables hne := absurd rfl hne
  others _ hne := table_setTable_other s tab hne
  count := by simp
  bitcnt := rfl
  tokens := rfl
  inFlight := h.symm
  cfg := rfl
  cmds := rfl
  rst := rfl
  record _ := ⟨rfl, rfl⟩

theorem exec_loadKeeps {t : BitVec 4} {i : Instr} {s u : State} (hi : IsLoad t i) (h : exec i s = .next u) :
    LoadKeeps t s u := by
  obtain ⟨hidle, hc⟩ := exec_carried h
  cases hc with
  | rejected => exact rejected_loadKeeps t hidle
  | raised _ c => exact raise_loadKeeps t c hidle
  | cleared => cases hi; exact write_loadKeeps t _ hidle
  | inserted => cases hi; exact write_loadKeeps t _ hidle
  | acknowledged | walked | read | readExtended => cases hi

/-- Settles O26: every outcome of a load rejects, raises a fault, or writes its one table. -/
theorem tableLoadFrame : Obligations.TableLoadFrame := by
  intro i t len code sym s u hi h
  have hload : IsLoad t i := by
    rcases hi with rfl | rfl
    · exact .clr
    · exact .ins len code sym
  have k := exec_loadKeeps hload h
  exact ⟨k.tables, k.others, k.bitcnt, k.tokens, k.inFlight, k.cfg, k.cmds, k.rst, k.record⟩

/-! ### What a load that ends without a fault has written -/

/-- `CLR` with no fault leaves its table empty (R89). -/
theorem exec_clr_table {t : BitVec 4} {s u : State} (h : exec (.clr t) s = .next u) (hf : u.fault = false) :
    u.table t = [] := by
  obtain ⟨-, hc⟩ := exec_carried h
  cases hc with
  | rejected _ hs => simp [hs] at hf
  | raised => simp at hf
  | cleared => exact table_setTable_nil s t

/-- `INS` with no fault began with none, and inserted a codeword that its table did not hold (R92, R93). -/
theorem exec_ins_table {t : BitVec 4} {len : BitVec 8} {code : BitVec 16} {sym : Symbol} {s u : State}
    (h : exec (.ins t len code sym) s = .next u) (ht : t.toNat < s.tables.length) (hf : u.fault = false) :
    s.fault = false ∧ lookup (s.table t) (codeword len code) = none ∧
      u.table t = insertEntry (codeword len code) sym (s.table t) := by
  obtain ⟨-, hc⟩ := exec_carried h
  cases hc with
  | rejected _ hs => simp [hs] at hf
  | raised => simp at hf
  | inserted _ _ _ _ hs _ hno _ =>
    refine ⟨hs, lookup_eq_none_iff.2 fun e he heq => ?_, table_setTable_same s t _ ht⟩
    exact (conflicts_eq_false_iff.1 hno e he).1 (heq ▸ List.prefix_rfl)

end Sys2Proof.Machine
end

section
/-! `LOADTAB` (spec/30_encoding.md R85, spec/40_table_load.md R91): the words of a table definition on the command port, and
the map that carrying them out builds. -/

namespace Sys2Proof.Machine

/-! ### The word of a command on the command port -/

/-- The word of a command decodes to it (R72, R80). -/
theorem decode_encode (i : Instr) : decode (encode i) = .command i := by
  have hword : Laws.Encoding.Statement i := by
    cases i with
    | clr t => exact Laws.Encoding.clr t
    | ins t len code sym => exact Laws.Encoding.ins t len code sym
    | dec t => exact Laws.Encoding.dec t
    | rcv n => exact Laws.Encoding.rcv n
    | rcvx n => exact Laws.Encoding.rcvx n
    | ack => exact Laws.Encoding.ack
  have hoperands : operands (encode i) i.op = i := by cases i <;> simp [encode, Instr.op, operands]
  obtain ⟨hop, hres, hunused⟩ := hword
  simp [decode, hop, opOf_code, hres, hunused, hoperands]

/-- An idle block takes the word of a command from the port and carries the command out (R79). -/
theorem step_encode {s : State} {i : Instr} {rest : List CmdWord} (hr : s.rst = false) (hi : s.inFlight = none)
    (hc : s.cmds = encode i :: rest) : step s = exec i { s with cmds := rest } := by
  simp [step, hr, hi, fetch, hc, acceptWord, decode_encode]

theorem run_zero {M : Host.Core} {s u : M.State} (h : M.run 0 s = .next u) : u = s := by
  cases h
  rfl

theorem run_succ {M : Host.Core} {k : Nat} {s u : M.State} (h : M.run (k + 1) s = .next u) :
    ∃ v, M.step s = .next v ∧ M.run k v = .next u := by
  unfold Host.Core.run at h
  split at h
  · exact ⟨_, ‹_›, h⟩
  · cases h
  · cases h

/-- The block between two words of a load of table `t`. -/
structure BetweenLoads (t : BitVec 4) (s : State) : Prop where
  rst   : s.rst = false
  idle  : s.inFlight = none
  table : t.toNat < s.tables.length

/-- A run over the words of a load carries out the first command, and goes on between two words. -/
theorem run_load_cons {t : BitVec 4} {i : Instr} {is : List Instr} {rest : List CmdWord} {s u : State} (hi : IsLoad t i)
    (hs : BetweenLoads t s) (hc : s.cmds = (i :: is).map encode ++ rest)
    (h : core.run (i :: is).length s = .next u) :
    ∃ v, exec i { s with cmds := is.map encode ++ rest } = .next v ∧ core.run is.length v = .next u ∧
      BetweenLoads t v ∧ v.cmds = is.map encode ++ rest ∧ ∀ t', t' ≠ t → v.table t' = s.table t' := by
  obtain ⟨v, hstep, hrun⟩ := run_succ h
  have hexec := (step_encode hs.rst hs.idle hc).symm.trans hstep
  have k := exec_loadKeeps hi hexec
  have hv : BetweenLoads t v := ⟨k.rst.trans hs.rst, k.inFlight.trans hs.idle, hs.table.trans_eq k.count.symm⟩
  exact ⟨v, hexec, hrun, hv, k.cmds, k.others⟩

/-! ### The commands of a table definition -/

/-- The codeword of an entry of a table definition (R85). -/
def LoadEntry.bits (e : LoadEntry) : Bits := bitsOf e.len e.code

/-- The `INS` of an entry names the entry's codeword: neither its length nor its code value is cut by its field (R84). -/
theorem insOf_eq_some {t : BitVec 4} {e : LoadEntry} {i : Instr} (h : insOf t e = some i) :
    ∃ len code, i = .ins t len code e.sym ∧ codeword len code = e.bits := by
  unfold insOf at h
  split at h
  · rename_i hfit
    obtain ⟨-, hlen, hcode⟩ := hfit
    cases h
    have hlen8 : e.len % 2 ^ 8 = e.len := Nat.mod_eq_of_lt (by simp only [maxCodeLen] at hlen; omega)
    have hcode16 : e.code % 2 ^ 16 = e.code :=
      Nat.mod_eq_of_lt (hcode.trans_le (Nat.pow_le_pow_right (by decide) hlen))
    exact ⟨_, _, rfl, by rw [codeword, BitVec.toNat_ofNat, BitVec.toNat_ofNat, hlen8, hcode16, LoadEntry.bits]⟩
  · cases h

theorem insAll_cons_eq_some {t : BitVec 4} {e : LoadEntry} {es : List LoadEntry} {is : List Instr}
    (h : insAll t (e :: es) = some is) :
    ∃ i is', insOf t e = some i ∧ insAll t es = some is' ∧ is = i :: is' := by
  unfold insAll at h
  split at h
  · cases h
    exact ⟨_, _, ‹_›, ‹_›, rfl⟩
  · cases h

/-! ### The map a load builds -/

/-- Table `tab'` holds the codes of `tab`, those of the entries, and no others (R91). -/
def AddsEntries (es : List LoadEntry) (tab tab' : Table) : Prop :=
  ∀ c sym, lookup tab' c = some sym ↔ lookup tab c = some sym ∨ ∃ e ∈ es, e.bits = c ∧ e.sym = sym

theorem addsEntries_nil (tab : Table) : AddsEntries [] tab tab := by
  simp [AddsEntries]

/-- One entry inserted under a codeword that was free, then the others. -/
theorem AddsEntries.cons {e : LoadEntry} {es : List LoadEntry} {tab tab' : Table} (hfree : lookup tab e.bits = none)
    (h : AddsEntries es (insertEntry e.bits e.sym tab) tab') : AddsEntries (e :: es) tab tab' := by
  intro c sym
  rw [h c sym, lookup_insertEntry, List.exists_mem_cons_iff]
  by_cases hc : e.bits = c
  · subst hc
    simp [hfree]
  · simp [hc]

/-- The `INS` words of a list of entries, carried out with no fault at the end, began with none and added the entries. -/
theorem run_insAll {t : BitVec 4} {rest : List CmdWord} {u : State} (hf : u.fault = false) :
    ∀ (es : List LoadEntry) (is : List Instr) (s : State), insAll t es = some is → BetweenLoads t s →
      s.cmds = is.map encode ++ rest → core.run is.length s = .next u →
      s.fault = false ∧ u.cmds = rest ∧ (∀ t', t' ≠ t → u.table t' = s.table t') ∧
        AddsEntries es (s.table t) (u.table t)
  | [], is, s, his, _, hc, h => by
    cases his
    obtain rfl := run_zero h
    exact ⟨hf, hc, fun _ _ => rfl, addsEntries_nil _⟩
  | e :: es, is, s, his, hs, hc, h => by
    obtain ⟨i, is, hi, hrest, rfl⟩ := insAll_cons_eq_some his
    obtain ⟨len, code, rfl, hbits⟩ := insOf_eq_some hi
    obtain ⟨v, hexec, hrun, hv, hvc, hvo⟩ := run_load_cons (.ins len code e.sym) hs hc h
    obtain ⟨hvf, huc, huo, hadds⟩ := run_insAll hf es is v hrest hv hvc hrun
    obtain ⟨hsf, hfree, htab⟩ := exec_ins_table hexec hs.table hvf
    rw [hbits] at hfree htab
    rw [htab] at hadds
    exact ⟨hsf, huc, fun t' ht => (huo t' ht).trans (hvo t' ht), hadds.cons hfree⟩

/-- Settles O59: the `CLR` leaves the table empty, and each `INS` after it adds its entry; a fault on the way would still
stand at the end. -/
theorem loadTabBuildsExactlyItsMap : Obligations.LoadTabBuildsExactlyItsMap := by
  intro s u t es is rest hrst hready hlen ht his hc h hf
  obtain ⟨is, hins, rfl⟩ := Option.map_eq_some_iff.1 his
  obtain ⟨v, hexec, hrun, hv, hvc, hvo⟩ := run_load_cons .clr ⟨hrst, hready.1, hlen.symm ▸ ht⟩ hc h
  obtain ⟨hvf, huc, huo, hadds⟩ := run_insAll hf es is v hins hv hvc hrun
  refine ⟨huc, fun t' ht' => (huo t' ht').trans (hvo t' ht'), fun c sym => ?_⟩
  have hmap := hadds c sym
  rw [exec_clr_table hexec hvf] at hmap
  simpa [LoadEntry.bits] using hmap

end Sys2Proof.Machine
end

section
/-! The walk of a `DEC` (spec/41_symbol_decode.md): where the bits taken lead, and the token that ends the walk (R104 to R108). -/

namespace Sys2Proof.Machine

/-! ### A walk inside the tree, and its last token -/

/-- The state of a `DEC` with table t, begun in `s`, that has taken the bits `p` and waits for the next (R42, R103). -/
def State.walkedTo (s : State) (t : BitVec 4) (p : Bits) : State :=
  { s with inFlight := some (.walk t p), bitcnt := s.bitcnt + BitVec.ofNat 32 p.length }

theorem entries_ne_zero_of_isInternal {tab : Table} {p : Bits} (h : isInternal tab p = true) : entries tab ≠ 0 := by
  rintro h0
  obtain rfl := List.length_eq_zero_iff.1 h0
  cases h

/-- A `DEC` takes the bits that lead to an internal node, and goes on from there with the tokens after them (R103). -/
theorem exec_dec_walkedTo {s : State} {t : BitVec 4} {p : Bits} {toks : List Token} (hready : Ready s)
    (ht : t.toNat < s.cfg.tableCount) (hp : PrefixFree (s.table t)) (hi : isInternal (s.table t) p = true)
    (htok : s.tokens = bitTokens p ++ toks) : exec (.dec t) s = .next (serve toks (s.walkedTo t p)) := by
  have hserve := serve_walk t p [] toks s hp hi
  rw [← htok] at hserve
  rw [exec_dec_ready hready ht (entries_ne_zero_of_isInternal hi), hserve]
  rfl

/-- The token at an internal node that ends the walk ends the `DEC`, and the tokens after it stay at the source (R48). -/
theorem exec_dec_lastToken {s u : State} {t : BitVec 4} {p : Bits} {tok : Token} {rest : List Token} (hready : Ready s)
    (ht : t.toNat < s.cfg.tableCount) (hp : PrefixFree (s.table t)) (hi : isInternal (s.table t) p = true)
    (htok : s.tokens = bitTokens p ++ tok :: rest) (hlast : takeToken (.walk t p) tok (s.walkedTo t p) = u)
    (hidle : u.inFlight = none) : exec (.dec t) s = .next { u with tokens := rest } := by
  rw [exec_dec_walkedTo hready ht hp hi htok, serve_cons (c := .walk t p) _ _ rfl, hlast, serve_idle _ hidle]

/-- The bit at an internal node that ends the walk ends the `DEC`. -/
theorem exec_dec_lastBit {s u : State} {t : BitVec 4} {p : Bits} {b : Bool} {rest : List Token} (hready : Ready s)
    (ht : t.toNat < s.cfg.tableCount) (hp : PrefixFree (s.table t)) (hi : isInternal (s.table t) p = true)
    (htok : s.tokens = bitTokens (p ++ [b]) ++ rest) (hlast : walkAt t (p ++ [b]) (countBit (s.walkedTo t p)) = u)
    (hidle : u.inFlight = none) : exec (.dec t) s = .next { u with tokens := rest } := by
  have htok' : s.tokens = bitTokens p ++ Token.ofBit b :: rest := by simp [htok, bitTokens]
  exact exec_dec_lastToken hready ht hp hi htok' ((takeToken_ofBit ..).trans hlast) hidle

/-- A bit more after the bits `p` is counted with them (R34). -/
theorem walkedTo_countBit (s : State) (t : BitVec 4) (p : Bits) :
    countBit (s.walkedTo t p) =
      { s with inFlight := some (.walk t p), bitcnt := s.bitcnt + BitVec.ofNat 32 (p.length + 1) } := by
  simp [countBit, State.walkedTo, BitVec.ofNat_add, BitVec.add_assoc]

theorem walkAt_of_lookup {t : BitVec 4} {p : Bits} {s : State} {sym : Symbol} (h : lookup (s.table t) p = some sym) :
    walkAt t p s = complete .ok (sym.setWidth 32) p.length s := by
  rw [walkAt, h]

/-- A node that leads to no codeword is not there (R101). -/
theorem missing_of_not_prefix {tab : Table} {p : Bits} (h : ∀ e ∈ tab, ¬ p <+: e.code) :
    lookup tab p = none ∧ isInternal tab p = false := by
  refine ⟨lookup_eq_none_iff.2 fun e he heq => h e he (heq ▸ List.prefix_rfl), Bool.eq_false_iff.2 fun hi => ?_⟩
  obtain ⟨e, he, hpre, -⟩ := isInternal_iff.1 hi
  exact h e he hpre

theorem walkAt_of_missing {t : BitVec 4} {p : Bits} {s : State} (hl : lookup (s.table t) p = none)
    (hi : isInternal (s.table t) p = false) : walkAt t p s = raise .invalidCode p.length s := by
  simp [walkAt, hl, hi]

/-! ### The three ends of a walk -/

/-- Settles O27: the codeword without its last bit is an internal node, and the last bit leads to the leaf. -/
theorem decReturnsTheSymbolOfItsCodeword : Obligations.DecReturnsTheSymbolOfItsCodeword := by
  intro s t e rest hready ht hwf he htok
  obtain ⟨hl, hp, -, -⟩ := hwf
  have hne : e.code ≠ [] := by
    have hlen := (hl e he).1
    rintro hnil
    simp [hnil, minCodeLen] at hlen
  obtain ⟨p, b, hcode⟩ := (List.eq_nil_or_concat' e.code).resolve_left hne
  have hi : isInternal (s.table t) p = true := isInternal_iff.2 ⟨e, he, by simp [hcode], by simp [hcode]⟩
  have hleaf : lookup (s.table t) (p ++ [b]) = some e.sym := hcode ▸ lookup_of_mem hp he
  have htok' : s.tokens = bitTokens (p ++ [b]) ++ rest := hcode ▸ htok
  have hlast := walkAt_of_lookup (s := countBit (s.walkedTo t p)) hleaf
  rw [exec_dec_lastBit hready ht hp hi htok' hlast rfl, walkedTo_countBit]
  simp [complete, hcode, hready.1]

/-- Settles O28: the bits taken lead to an internal node, where the `NONE` ends the command. -/
theorem decEndsWithNoneAtEndOfStream : Obligations.DecEndsWithNoneAtEndOfStream := by
  intro s t p e rest hready ht hwf he hpre hne htok
  obtain ⟨-, hp, -, -⟩ := hwf
  have hi : isInternal (s.table t) p = true := isInternal_iff.2 ⟨e, he, hpre, hne⟩
  rw [exec_dec_lastToken hready ht hp hi htok rfl rfl]
  simp [State.walkedTo, complete, InFlight.bitsTaken, hready.1]

/-- Settles O29: the bits before the last lead to an internal node, and the last leads to no codeword nor towards one. -/
theorem decOffTheTreeRaisesInvalidCode : Obligations.DecOffTheTreeRaisesInvalidCode := by
  intro s t p b e rest hready ht hwf he hpre hne hoff htok
  obtain ⟨-, hp, -, -⟩ := hwf
  have hi : isInternal (s.table t) p = true := isInternal_iff.2 ⟨e, he, hpre, hne⟩
  obtain ⟨hnone, hout⟩ := missing_of_not_prefix hoff
  have hlast := walkAt_of_missing (s := countBit (s.walkedTo t p)) hnone hout
  rw [exec_dec_lastBit hready ht hp hi htok hlast rfl, walkedTo_countBit]
  simp [raise, complete, Cause.code, hready.1]

/-- Settles O30: the check for an empty table comes before the walk. -/
theorem decOnEmptyTableRaisesEmptyTable : Obligations.DecOnEmptyTableRaisesEmptyTable := by
  intro s t hready ht hempty
  simp only [exec, execDec, accept_ready hready, lacksTable_eq_false ht, hempty, if_true, if_false, Bool.false_eq_true]
  rw [raise_idle _ _ hready.1]
  rfl

/-! ### The bound of a walk (R108) -/

/-- `u` shows a `DEC` that ended after at most 16 bits in `OK`, `NONE` or a fault that R107, R106 or R132 names. -/
def DecEnded (u : State) : Prop :=
  u.resNbits.toNat ≤ 16 ∧
    ((u.resStatus = .ok ∧ u.fault = false) ∨ (u.resStatus = .none ∧ u.fault = false) ∨
      (u.resStatus = .fault ∧ u.fault = true ∧ (u.cause = 3 ∨ u.cause = 8 ∨ u.cause = 9)))

/-- What a walk that has taken `n` bits, at a `BITCNT` of `count`, and is offered `m` tokens comes to in `u` (R108). -/
structure WalkBounded (n m : Nat) (count : RegWord) (u : State) : Prop where
  bits  : ∃ k, n + k ≤ 16 ∧ u.bitcnt = count + BitVec.ofNat 32 k
  done  : 16 ≤ n + m → u.inFlight = none
  ended : u.inFlight = none → DecEnded u

theorem toNat_ofNat_five_le {n : Nat} (h : n ≤ 16) : (BitVec.ofNat 5 n).toNat ≤ 16 := by
  rw [BitVec.toNat_ofNat]
  exact (Nat.mod_le _ _).trans h

/-- A walk that its token ends. -/
theorem WalkBounded.last {n m k : Nat} {count : RegWord} {u : State} (hk : n + k ≤ 16)
    (hb : u.bitcnt = count + BitVec.ofNat 32 k) (hidle : u.inFlight = none) (hend : DecEnded u) :
    WalkBounded n m count u :=
  ⟨⟨k, hk, hb⟩, fun _ => hidle, fun _ => hend⟩

/-- A bit that keeps the walk in the tree, before the other tokens. -/
theorem WalkBounded.afterBit {n m : Nat} {count : RegWord} {u : State} (h : WalkBounded (n + 1) m (count + 1) u) :
    WalkBounded n (m + 1) count u := by
  obtain ⟨⟨k, hk, hb⟩, hdone, hend⟩ := h
  refine ⟨⟨k + 1, by omega, ?_⟩, fun hm => hdone (by omega), hend⟩
  rw [hb, Nat.add_comm k, BitVec.ofNat_add, BitVec.add_assoc]
  rfl

/-- A walk at an internal node: it has fewer than 16 bits, so the next bit is at most the sixteenth. -/
theorem serve_walkBounded (t : BitVec 4) : ∀ (toks : List Token) (p : Bits) (s : State),
    s.inFlight = some (.walk t p) → s.fault = false → LengthsInRange (s.table t) →
    isInternal (s.table t) p = true → WalkBounded p.length toks.length s.bitcnt (serve toks s)
  | [], p, s, hc, _, hl, hi => by
    have hlt : p.length < 16 := length_lt_of_isInternal hl hi
    refine ⟨⟨0, hlt.le, by simp⟩, fun h => ?_, fun h => ?_⟩
    · exact absurd hlt (Nat.not_lt.2 h)
    · simp [hc] at h
  | tok :: rest, p, s, hc, hf, hl, hi => by
    have hlt : p.length < 16 := length_lt_of_isInternal hl hi
    rw [serve_cons _ _ hc]
    have heffect := takeToken_effect (.walk t p) tok s
    generalize takeToken (.walk t p) tok s = v at heffect ⊢
    cases heffect with
    | ended =>
      rw [serve_idle _ rfl]
      exact .last (k := 0) hlt.le (by simp) rfl ⟨toNat_ofNat_five_le hlt.le, .inr (.inl ⟨rfl, hf⟩)⟩
    | leaf b _ _ sym hw =>
      cases hw
      rw [serve_idle _ rfl]
      exact .last (k := 1) hlt rfl rfl ⟨toNat_ofNat_five_le hlt, .inl ⟨rfl, hf⟩⟩
    | inner b _ _ hw _ hi' =>
      cases hw
      have ih := serve_walkBounded t rest (p ++ [b]) { countBit s with inFlight := some (.walk t (p ++ [b])) } rfl hf hl hi'
      rw [List.length_append] at ih
      exact .afterBit ih
    | off b _ _ hw =>
      cases hw
      rw [serve_idle _ rfl]
      exact .last (k := 1) hlt rfl rfl ⟨toNat_ofNat_five_le hlt, .inr (.inr ⟨rfl, rfl, .inr (.inr rfl)⟩)⟩
    | full _ _ _ _ _ hw | partly _ _ _ _ _ hw => cases hw

/-- A `DEC` that raises a fault before any bit names the table's (R107, R132). -/
theorem raise_decEnded {t : BitVec 4} {c : Cause} (s : State) (h : mayRaise (.command (.dec t)) c = true) :
    DecEnded (raise c 0 s) := by
  have hc : c = .badTable ∨ c = .emptyTable := by simpa [mayRaise] using h
  refine ⟨toNat_ofNat_five_le (Nat.zero_le _), .inr (.inr ⟨rfl, rfl, ?_⟩)⟩
  rcases hc with rfl | rfl
  · exact .inl rfl
  · exact .inr (.inl rfl)

/-- Settles O32: a `DEC` on a ready block raises a fault before any bit, or walks from the root of a table with a code. -/
theorem decIsBoundedAndEndsByName : Obligations.DecIsBoundedAndEndsByName := by
  intro s u t hinv hready h
  suffices hb : WalkBounded 0 s.tokens.length s.bitcnt u by
    obtain ⟨⟨k, hk, hbits⟩, hdone, hend⟩ := hb
    exact ⟨⟨k, by omega, hbits⟩, fun hm => hdone (by omega), hend⟩
  obtain ⟨hl, -, -, -⟩ := tableWf_of_tables hinv.tables t
  obtain ⟨-, hcarried⟩ := exec_carried h
  cases hcarried with
  | rejected _ hf => simp [hready.2] at hf
  | raised _ c _ hc => exact .last (k := 0) (by omega) (by simp) rfl (raise_decEnded s hc)
  | walked _ hf _ hn =>
    exact serve_walkBounded t s.tokens [] { s with inFlight := some (.walk t []) } rfl hf hl (isInternal_root hl hn)

end Sys2Proof.Machine
end

section
/-! The tree view of a table (spec/10_state.md R24, spec/41_symbol_decode.md R102): a codeword added to the tree, and the same
codeword added to the map, change what stands at a node in the same way. -/

namespace Sys2Proof.Machine

/-! ### What stands at a node once a path is added to the tree -/

theorem graft_cons (tr : Tree) (b : Bool) (s : Bits) (sym : Symbol) : ∃ l r,
    graft tr (b :: s) sym = .node l r ∧ (if b then r else l) = graft (nodeAt tr [b]) s sym ∧
      (if b then l else r) = nodeAt tr [!b] := by
  cases tr <;> cases b <;> simp [graft, nodeAt]

theorem nodeAt_cons (tr : Tree) (b : Bool) (p : Bits) : nodeAt tr (b :: p) = nodeAt (nodeAt tr [b]) p := by
  cases tr <;> cases b <;> simp [nodeAt]

theorem nodeAt_append (q : Bits) : ∀ (p : Bits) (tr : Tree), nodeAt tr (p ++ q) = nodeAt (nodeAt tr p) q
  | [], tr => by simp
  | b :: p, tr => by rw [List.cons_append, nodeAt_cons, nodeAt_append q p, ← nodeAt_cons]

/-- Along the path, the rest of the path is what has been added. -/
theorem nodeAt_graft_append (sym : Symbol) (q : Bits) : ∀ (p : Bits) (tr : Tree),
    nodeAt (graft tr (p ++ q) sym) p = graft (nodeAt tr p) q sym
  | [], tr => by simp
  | b :: p, tr => by
    obtain ⟨l, r, hnode, hchild, -⟩ := graft_cons tr b (p ++ q) sym
    rw [List.cons_append, hnode, nodeAt_node_cons, hchild, nodeAt_graft_append sym q p, ← nodeAt_cons]

/-- Off the path, nothing has changed. -/
theorem nodeAt_graft_other (sym : Symbol) : ∀ (s p : Bits) (tr : Tree), ¬ p <+: s → ¬ s <+: p →
    nodeAt (graft tr s sym) p = nodeAt tr p
  | [], p, _, _, hs => absurd List.nil_prefix hs
  | _ :: _, [], _, hp, _ => absurd List.nil_prefix hp
  | b :: s, c :: p, tr, hp, hs => by
    obtain ⟨l, r, hnode, hchild, hother⟩ := graft_cons tr b s sym
    rw [hnode, nodeAt_node_cons, nodeAt_cons tr c p]
    by_cases hbc : c = b
    · subst hbc
      rw [hchild]
      exact nodeAt_graft_other sym s p _ (by simpa using hp) (by simpa using hs)
    · obtain rfl := Bool.eq_not_iff.2 hbc
      rw [← hother]
      cases b <;> rfl

@[simp] theorem graft_nil (tr : Tree) (sym : Symbol) : graft tr [] sym = .leaf sym := by cases tr <;> rfl

/-- The node at the end of the path is the leaf. -/
theorem nodeAt_graft_self (tr : Tree) (s : Bits) (sym : Symbol) : nodeAt (graft tr s sym) s = .leaf sym := by
  simpa using nodeAt_graft_append sym [] s tr

/-- A node above the end of the path has a child. -/
theorem found_graft_above {s p : Bits} (tr : Tree) (sym : Symbol) (hpre : p <+: s) (hne : p ≠ s) :
    (nodeAt (graft tr s sym) p).found = .inner := by
  obtain ⟨q, rfl⟩ := hpre
  obtain ⟨b, q, rfl⟩ := List.exists_cons_of_ne_nil (l := q) fun hq => hne (by simp [hq])
  obtain ⟨l, r, hnode, hchild, -⟩ := graft_cons (nodeAt tr p) b q sym
  have hthere : (if b then r else l) ≠ .absent := hchild ▸ graft_ne_absent _ q sym
  rw [nodeAt_graft_append, hnode]
  cases b
  · exact found_node (.inl hthere)
  · exact found_node (.inr hthere)

/-- Beyond the end of the path there is no node. -/
theorem nodeAt_graft_beyond {s p : Bits} (tr : Tree) (sym : Symbol) (hpre : s <+: p) (hne : p ≠ s) :
    nodeAt (graft tr s sym) p = .absent := by
  obtain ⟨q, rfl⟩ := hpre
  obtain ⟨b, q, rfl⟩ := List.exists_cons_of_ne_nil (l := q) fun hq => hne (by simp [hq])
  rw [nodeAt_append, nodeAt_graft_self]
  cases b <;> rfl

/-! ### What stands at a node of the map -/

theorem foundInMap_of_mem {tab : Table} {e : Entry} (hp : PrefixFree tab) (he : e ∈ tab) :
    foundInMap tab e.code = .leaf e.sym := by
  rw [foundInMap, lookup_of_mem hp he]

theorem foundInMap_of_isInternal {tab : Table} {p : Bits} (hp : PrefixFree tab) (hi : isInternal tab p = true) :
    foundInMap tab p = .inner := by
  simp [foundInMap, lookup_eq_none_of_isInternal hp hi, hi]

/-- Beyond a codeword there is no node (R106). -/
theorem foundInMap_beyond {tab : Table} {e : Entry} {p : Bits} (hp : PrefixFree tab) (he : e ∈ tab)
    (hpre : e.code <+: p) (hne : p ≠ e.code) : foundInMap tab p = .missing := by
  have hno : ∀ d ∈ tab, ¬ p <+: d.code := by
    rintro d hd hpd
    obtain rfl := eq_of_prefix hp he hd (hpre.trans hpd)
    exact hne (hpd.eq_of_length_le hpre.length_le)
  obtain ⟨hl, hi⟩ := missing_of_not_prefix hno
  have hnil : p ≠ [] := by
    rintro rfl
    exact hne (List.prefix_nil.1 hpre).symm
  simp [foundInMap, hl, hi, hnil]

theorem lookup_append_of_ne {e : Entry} {p : Bits} (h : e.code ≠ p) :
    ∀ tab : Table, lookup (tab ++ [e]) p = lookup tab p
  | [] => by simp [lookup, h]
  | d :: tab => by simp [lookup, lookup_append_of_ne h tab]

/-- A codeword changes only the nodes on its own path. -/
theorem foundInMap_append_of_not_prefix {e : Entry} {p : Bits} (h : ¬ p <+: e.code) (tab : Table) :
    foundInMap (tab ++ [e]) p = foundInMap tab p := by
  have hne : e.code ≠ p := fun heq => h (heq ▸ List.prefix_rfl)
  have hi : isInternal (tab ++ [e]) p = isInternal tab p := by
    simp [isInternal, isProperPrefix, isPrefix_eq_false_iff.2 h]
  rw [foundInMap, foundInMap, lookup_append_of_ne hne, hi]

/-- The root is a node of every table, the empty one too (R24). -/
theorem foundInMap_root (tab : Table) : foundInMap tab [] ≠ .missing := by
  unfold foundInMap
  split
  · simp
  · split <;> simp

/-! ### The two views agree (R102) -/

theorem treeOf_append (tab : Table) (e : Entry) : treeOf (tab ++ [e]) = graft (treeOf tab) e.code e.sym := by
  simp [treeOf]

theorem found_treeOf (p : Bits) (tab : Table) (hp : PrefixFree tab) :
    (nodeAt (treeOf tab) p).found = foundInMap tab p := by
  induction tab using List.reverseRecOn with
  | nil =>
    cases p with
    | nil => rfl
    | cons b p => cases b <;> simp [treeOf, Tree.root, Tree.found, foundInMap, isInternal]
  | append_singleton tab e ih =>
    have he : e ∈ tab ++ [e] := by simp
    rw [treeOf_append]
    by_cases heq : p = e.code
    · rw [heq, nodeAt_graft_self, foundInMap_of_mem hp he]
      rfl
    by_cases hpe : p <+: e.code
    · rw [found_graft_above _ _ hpe heq, foundInMap_of_isInternal hp (isInternal_iff.2 ⟨e, he, hpe, heq⟩)]
    by_cases hep : e.code <+: p
    · rw [nodeAt_graft_beyond _ _ hep heq, foundInMap_beyond hp he hep heq]
      rfl
    · rw [nodeAt_graft_other _ _ _ _ hpe hep, foundInMap_append_of_not_prefix hpe]
      obtain ⟨hp, -, -⟩ := List.pairwise_append.1 hp
      exact ih hp

/-- Settles O58: by induction on the entries, in the order in which the tree is built. -/
theorem treeViewAgreesWithTheMap : Obligations.TreeViewAgreesWithTheMap := by
  intro m tab p hwf
  obtain ⟨-, hp, -, -⟩ := hwf
  exact ⟨found_treeOf p tab hp, found_treeOf [] tab hp ▸ foundInMap_root tab⟩

end Sys2Proof.Machine
end

section
/-! The raw reads `RCV` and `RCVX` (spec/42_raw_bits.md): the read of width 0 (R114), the end of the bit stream (R116), and the
range of a result (R117). -/

namespace Sys2Proof.Machine

/-! ### A raw read at a count -/

theorem rawAt_of_le {n taken : Nat} (ext : Bool) (value : Nat) (s : State) (h : n ≤ taken) :
    rawAt ext n taken value s = complete .ok (rawResult ext n value) n s := by
  rw [rawAt, if_pos h]

theorem rawAt_of_lt {n taken : Nat} (ext : Bool) (value : Nat) (s : State) (h : taken < n) :
    rawAt ext n taken value s = { s with inFlight := some (.raw ext n taken value) } := by
  rw [rawAt, if_neg (Nat.not_le_of_lt h)]

/-- Either raw read is the one that its extension names. -/
theorem exists_ext_of_rawRead {i : Instr} {n : BitVec 8} (h : i = .rcv n ∨ i = .rcvx n) :
    ∃ ext : Bool, i = if ext then .rcvx n else .rcv n := by
  rcases h with rfl | rfl
  · exact ⟨false, rfl⟩
  · exact ⟨true, rfl⟩

/-! ### The read of width 0 (R114) -/

/-- No bit has value 0, extended or not (R119). -/
theorem rawResult_zero (ext : Bool) : rawResult ext 0 0 = 0 := by cases ext <;> rfl

/-- Settles O37: a read of width 0 has its width when it begins, so it is idle before any token is served. -/
theorem rawReadOfWidthZeroTakesNoBit : Obligations.RawReadOfWidthZeroTakesNoBit := by
  intro s i hready hi
  obtain ⟨ext, rfl⟩ := exists_ext_of_rawRead hi
  have hbegin : rawAt ext (0 : BitVec 8).toNat 0 0 s = complete .ok 0 0 s :=
    (rawAt_of_le ext 0 s le_rfl).trans (congrArg (complete .ok · 0 s) (rawResult_zero ext))
  rw [exec_raw_ready ext hready (by decide), hbegin, serve_idle _ rfl]
  simp [complete, hready.1]

/-! ### The end of the bit stream (R116) -/

/-- The state of a raw read of width n, begun in `s`, that has taken the bits `bs` and waits for the next (R42, R113). -/
def State.readTo (s : State) (ext : Bool) (n : BitVec 8) (bs : Bits) : State :=
  { s with
    inFlight := some (.raw ext n.toNat bs.length (valueOf bs)), bitcnt := s.bitcnt + BitVec.ofNat 32 bs.length }

/-- A raw read takes the bits below its width, and goes on from there with the tokens after them (R113). -/
theorem exec_raw_readTo {s : State} {n : BitVec 8} {bs : Bits} {toks : List Token} (ext : Bool) (hready : Ready s)
    (hn : rawLenInRange n) (hlt : bs.length < n.toNat) (htok : s.tokens = bitTokens bs ++ toks) :
    exec (if ext then .rcvx n else .rcv n) s = .next (serve toks (s.readTo ext n bs)) := by
  have hserve := serve_raw ext n.toNat bs 0 0 toks s (by omega)
  rw [← htok, Nat.zero_add] at hserve
  rw [exec_raw_ready ext hready hn, rawAt_of_lt ext 0 s (Nat.zero_lt_of_lt hlt), hserve]
  rfl

/-- Settles O38: the bits taken leave the read waiting, and the `NONE` ends it there. -/
theorem rawReadEndsWithNoneAtEndOfStream : Obligations.RawReadEndsWithNoneAtEndOfStream := by
  intro s n i bs rest hready hn hi hlt htok
  obtain ⟨ext, rfl⟩ := exists_ext_of_rawRead hi
  rw [exec_raw_readTo ext hready hn hlt htok, serve_cons (c := .raw ext n.toNat bs.length (valueOf bs)) _ _ rfl,
    takeToken_eos, serve_idle _ rfl]
  simp [State.readTo, complete, InFlight.bitsTaken, hready.1]

/-! ### The range of a result (R117) -/

/-- An `RCV` of width n on its way: it waits with a value of the bits it has taken, or has ended, and an `OK` result is one of
n bits. -/
inductive RcvInRange (n : Nat) (s : State) : Prop where
  | waiting (taken value : Nat) (hc : s.inFlight = some (.raw false n taken value)) (hlt : taken < n)
      (hv : value < 2 ^ taken)
  | ended (hi : s.inFlight = none) (hok : s.resStatus = .ok → s.resValue.toNat < 2 ^ n)

/-- One bit more doubles the range of a value. -/
theorem pushBit_lt {v k : Nat} (b : Bool) (h : v < 2 ^ k) : pushBit v b < 2 ^ (k + 1) := by
  have hb := b.toNat_le
  rw [pushBit, pow_succ]
  omega

theorem rawAt_rcvInRange {n taken value : Nat} (s : State) (hle : taken ≤ n) (hv : value < 2 ^ taken) :
    RcvInRange n (rawAt false n taken value s) := by
  rcases rawAt_cases false n taken value s with ⟨hn, h⟩ | ⟨hlt, h⟩ <;> rw [h]
  · obtain rfl := Nat.le_antisymm hle hn
    refine .ended rfl fun _ => ?_
    calc (BitVec.ofNat 32 value).toNat = value % 2 ^ 32 := BitVec.toNat_ofNat ..
      _ ≤ value := Nat.mod_le ..
      _ < 2 ^ taken := hv
  · exact .waiting taken value rfl hlt hv

theorem takeToken_rcvInRange {n : Nat} {c : InFlight} (tok : Token) {s : State} (hi : s.inFlight = some c)
    (h : RcvInRange n s) : RcvInRange n (takeToken c tok s) := by
  cases h with
  | ended hidle => simp [hi] at hidle
  | waiting taken value hc hlt hv =>
    obtain rfl : c = .raw false n taken value := by simpa [hi] using hc
    have hbit (b : Bool) : RcvInRange n (takeBit (.raw false n taken value) b s) :=
      rawAt_rcvInRange (countBit s) hlt (pushBit_lt b hv)
    cases tok with
    | bit0 => exact hbit false
    | bit1 => exact hbit true
    | eos => exact .ended rfl fun hok => by simp at hok

theorem serve_rcvInRange {n : Nat} (toks : List Token) {s : State} (h : RcvInRange n s) :
    RcvInRange n (serve toks s) := by
  refine serve_keeps (fun c tok s hi h => takeToken_rcvInRange tok hi h) (fun _ s h => ?_) toks s h
  cases h with
  | waiting taken value hc hlt hv => exact .waiting taken value hc hlt hv
  | ended hi hok => exact .ended hi hok

/-- Settles O40: the read begins with the value 0 of no bit, and every token keeps the range; no other outcome is `OK`. -/
theorem rcvResultIsBelowTwoToTheWidth : Obligations.RcvResultIsBelowTwoToTheWidth := by
  intro s u n h hidle hok
  obtain ⟨-, hcarried⟩ := exec_carried h
  cases hcarried with
  | rejected | raised => simp at hok
  | read =>
    have hbegin := rawAt_rcvInRange (n := n.toNat) (taken := 0) (value := 0) s (Nat.zero_le _) Nat.one_pos
    cases serve_rcvInRange s.tokens hbegin with
    | waiting _ _ hc => simp [hidle] at hc
    | ended _ hlt => exact hlt hok

end Sys2Proof.Machine
end

section
/-! The control command `ACK`, and what a faulted block does with a word (spec/43_control.md R123 to R126). -/

namespace Sys2Proof.Machine

/-! ### ACK -/

/-- Completing while no command is in progress writes the result registers, nothing else (R33). -/
theorem complete_idle {s : State} (st : ResStatus) (v : RegWord) (n : Nat) (h : s.inFlight = none) :
    complete st v n s =
      { s with resStatus := st, resNbits := BitVec.ofNat 5 n, resValue := if st = .ok then v else 0 } := by
  cases s
  cases h
  rfl

/-- Settles O44: an idle block carries `ACK` out, and its completion ends no command. -/
theorem ackClearsTheFaultAndNothingElse : Obligations.AckClearsTheFaultAndNothingElse := by
  intro s hidle
  calc exec .ack s = .next (acknowledge s) := acceptWhileFaulted_idle hidle
    _ = _ := by rw [acknowledge, complete_idle (s := { s with fault := false, cause := 0 }) _ _ _ hidle]; rfl

/-! ### A faulted block -/

/-- A faulted block rejects every command but `ACK`, its operands not looked at (R126). -/
theorem exec_faulted {i : Instr} {s : State} (hidle : s.inFlight = none) (hf : s.fault = true) (hi : i ≠ .ack) :
    exec i s = .next (complete .rejected 0 0 s) := by
  cases i with
  | ack => exact absurd rfl hi
  | clr | ins | dec | rcv | rcvx =>
    simp only [exec, execClr, execIns, execDec, execRcv, execRcvx, accept_faulted hidle hf]

/-- A faulted block rejects every word but the exact `ACK` word, legal or not (R126). -/
theorem acceptWord_faulted {w : CmdWord} {s : State} (hidle : s.inFlight = none) (hf : s.fault = true)
    (hw : w ≠ ackWord) : acceptWord w s = .next (complete .rejected 0 0 s) := by
  unfold acceptWord
  split
  · rename_i i hd
    exact exec_faulted hidle hf fun hack => hw (eq_ackWord_of_decode (hack ▸ hd))
  · exact accept_faulted hidle hf

/-- An idle block takes the word at the head of the command port (R79). -/
theorem step_takesWord {s : State} {w : CmdWord} {rest : List CmdWord} (hr : s.rst = false) (hidle : s.inFlight = none)
    (hc : s.cmds = w :: rest) : step s = acceptWord w { s with cmds := rest } := by
  simp [step, hr, hidle, fetch, hc]

/-- Settles O11: the two words' cases are the rejection by a faulted block and O44, on the state without the word. -/
theorem faultedBlockRejectsAllButAck : Obligations.FaultedBlockRejectsAllButAck := by
  intro s w rest hr hidle hf hc
  constructor
  · intro hw
    rw [step_takesWord hr hidle hc, acceptWord_faulted (s := { s with cmds := rest }) hidle hf hw,
      complete_idle (s := { s with cmds := rest }) _ _ _ hidle]
    rfl
  · rintro rfl
    have hword : (0x0600000000000000 : CmdWord) = encode .ack := by decide
    rw [step_encode hr hidle (hword ▸ hc)]
    exact ackClearsTheFaultAndNothingElse { s with cmds := rest } hidle

end Sys2Proof.Machine
end

section
/-! The faults taken before any bit (spec/60_exceptions.md): of a word that spells no command (R130, R131), and of operands
out of range (R132 to R134), in the order of R140. -/

namespace Sys2Proof.Machine

/-! ### Words that spell no command -/

theorem acceptWord_of_decode_raises {s : State} {w : CmdWord} {f : DecodeFault} (hready : Ready s)
    (hd : decode w = .raises f) : acceptWord w s = .next (raise (decodeCause f) 0 s) := by
  simp only [acceptWord, hd]
  exact accept_ready hready

/-- A ready block takes the fault that the decoding of its word names (R79). -/
theorem step_of_decode_raises {s : State} {w : CmdWord} {rest : List CmdWord} {f : DecodeFault} (hr : s.rst = false)
    (hready : Ready s) (hc : s.cmds = w :: rest) (hd : decode w = .raises f) :
    step s = .next
      { s with cmds := rest, fault := true, cause := (decodeCause f).code, resStatus := .fault, resNbits := 0,
               resValue := 0 } := by
  rw [step_takesWord hr hready.1 hc, acceptWord_of_decode_raises (s := { s with cmds := rest }) hready hd,
    raise_idle (s := { s with cmds := rest }) _ _ hready.1]
  rfl

/-- The opcode map has no operation exactly outside `0x01` to `0x06` (R73, R81). -/
theorem opOf_eq_none_iff {b : BitVec 8} : opOf b = none ↔ b.toNat = 0 ∨ 7 ≤ b.toNat := by
  unfold opOf
  split
  case h_7 =>
    simp only [imp_false, true_iff] at *
    omega
  all_goals
    simp only [reduceCtorEq, false_iff]
    omega

theorem decode_of_opOf_eq_none {w : CmdWord} (h : opOf (opField w) = none) : decode w = .raises .illegalOp := by
  rw [decode, h]

/-- Settles O9: the opcode map has no operation for the word, which is the first check of its decoding. -/
theorem illegalOpRaisesItsFault : Obligations.IllegalOpRaisesItsFault := by
  intro s w rest hr hready hc hop
  exact step_of_decode_raises hr hready hc (decode_of_opOf_eq_none (opOf_eq_none_iff.2 hop))

/-- The fields that must be zero for an operation, one by one (R72, R80). -/
theorem mustBeZeroField_set_iff {op : Op} {w : CmdWord} :
    (reservedFieldSet w || unusedFieldSet op w) = true ↔
      rsv1Field w ≠ 0 ∨ rsv2Field w ≠ 0 ∨ (op.uses.tbl = false ∧ tblField w ≠ 0) ∨
        (op.uses.len = false ∧ lenField w ≠ 0) ∨ (op.uses.sym = false ∧ symField w ≠ 0) ∨
        (op.uses.code = false ∧ codeField w ≠ 0) := by
  simp [reservedFieldSet, unusedFieldSet, or_assoc]

theorem decode_of_mustBeZeroField_set {op : Op} {w : CmdWord} (hop : opField w = op.code)
    (h : (reservedFieldSet w || unusedFieldSet op w) = true) : decode w = .raises .reservedBits := by
  simp only [decode, hop, opOf_code, h, if_true]

/-- Settles O10: the operation is known, and the check of the fields that must be zero comes next in the decoding. -/
theorem reservedBitsRaiseTheirFault : Obligations.ReservedBitsRaiseTheirFault := by
  intro s w rest op hr hready hc hop hset
  exact step_of_decode_raises hr hready hc (decode_of_mustBeZeroField_set hop (mustBeZeroField_set_iff.2 hset))

/-! ### Operands out of range -/

/-- The table is the first operand that `CLR`, `INS` and `DEC` check (R79, R140). -/
theorem exec_of_lacksTable {s : State} {t : BitVec 4} {len : BitVec 8} {code : BitVec 16} {sym : Symbol} {i : Instr}
    (hready : Ready s) (ht : s.lacksTable t = true) (hi : i = .clr t ∨ i = .ins t len code sym ∨ i = .dec t) :
    exec i s = .next (raise .badTable 0 s) := by
  rcases hi with rfl | rfl | rfl
  · rw [exec, execClr, accept_ready hready, if_pos ht]
  · rw [exec, execIns, accept_ready hready, if_pos ht]
  · rw [exec, execDec, accept_ready hready, if_pos ht]

/-- Settles O23: no check comes before the one of the table. -/
theorem badTableRaisesItsFault : Obligations.BadTableRaisesItsFault := by
  intro s t len code sym i hready ht hi
  rw [exec_of_lacksTable hready (lacksTable_iff.2 ht) hi, raise_idle _ _ hready.1]
  rfl

/-- An `INS` of an existing table goes on to the checks of its length and its code (R79, R140). -/
theorem exec_ins_of_table {s : State} {t : BitVec 4} {len : BitVec 8} {code : BitVec 16} {sym : Symbol} (hready : Ready s)
    (ht : t.toNat < s.cfg.tableCount) :
    exec (.ins t len code sym) s = .next
      (if ¬ codeLenInRange len then raise .badLength 0 s
      else if ¬ codeFits len code then raise .badCode 0 s
      else insertCode t (codeword len code) sym s) := by
  rw [exec, execIns, accept_ready hready, lacksTable_eq_false ht, if_neg Bool.false_ne_true]

/-- A raw read checks its width before it begins (R113, R118). -/
theorem exec_raw_of_badLength {s : State} {n : BitVec 8} (ext : Bool) (hready : Ready s) (hn : ¬ rawLenInRange n) :
    exec (if ext then .rcvx n else .rcv n) s = .next (raise .badLength 0 s) := by
  cases ext with
  | false => simp only [exec, execRcv, accept_ready hready, hn, not_false_eq_true, if_true, Bool.false_eq_true, if_false]
  | true => simp only [exec, execRcvx, accept_ready hready, hn, not_false_eq_true, if_true]

theorem not_codeLenInRange {len : BitVec 8} (h : len.toNat = 0 ∨ 16 < len.toNat) : ¬ codeLenInRange len := by
  simp only [codeLenInRange, minCodeLen, maxCodeLen]
  omega

/-- Settles O24: the length is the second check of an `INS`, whose table exists, and the only one of a raw read. -/
theorem badLengthRaisesItsFault : Obligations.BadLengthRaisesItsFault := by
  intro s t len code sym i hready hi
  have hraise : exec i s = .next (raise .badLength 0 s) := by
    rcases hi with ⟨rfl, ht, hlen⟩ | ⟨rfl, hlen⟩ | ⟨rfl, hlen⟩
    · rw [exec_ins_of_table hready ht, if_pos (not_codeLenInRange hlen)]
    · exact exec_raw_of_badLength false hready (Nat.not_le_of_lt hlen)
    · exact exec_raw_of_badLength true hready (Nat.not_le_of_lt hlen)
  rw [hraise, raise_idle _ _ hready.1]
  rfl

/-- Settles O25: the checks of the table and of the length pass, and the check of the code, which comes next, does not. -/
theorem badCodeRaisesItsFault : Obligations.BadCodeRaisesItsFault := by
  intro s t len code sym hready ht hmin hmax hcode
  have hlen : codeLenInRange len := ⟨hmin, hmax⟩
  rw [exec_ins_of_table hready ht, if_neg (not_not_intro hlen), if_pos (Nat.not_lt_of_le hcode),
    raise_idle _ _ hready.1]
  rfl

end Sys2Proof.Machine
end

section
/-! The invariant of the block (spec/10_state.md R23, R27, R29, R30, R42): the reset state has it, every operation a step is
made of keeps it, and so every step does. -/

namespace Sys2Proof.Machine

/-! ### After reset (R45) -/

theorem inv_resetWith {cfg : Config} (h : cfg.Conforming) : Inv (State.resetWith cfg) where
  config := h
  tables := tablesWf_resetWith cfg
  status := ⟨⟨fun _ => rfl, fun _ => rfl⟩, Nat.zero_le _⟩
  result := ⟨Nat.zero_le _, fun _ => rfl, by simp [State.resetWith]⟩
  inFlight := rfl

/-- Settles O3: the tables by `tablesWf_resetWith`, and every register is 0. -/
theorem invHoldsAtReset : Obligations.InvHoldsAtReset := fun _ h => inv_resetWith h

/-- The invariant does not speak of the input ports, which a reset leaves as they are. -/
theorem inv_resetBlock {s : State} (h : Inv s) : Inv (resetBlock s) := by
  have hr := inv_resetWith h.config
  exact ⟨hr.config, hr.tables, hr.status, hr.result, rfl⟩

/-! ### A command in progress (R42) -/

theorem inFlightWf_walk {s : State} {t : BitVec 4} {p : Bits} (h : s.inFlight = some (.walk t p)) :
    inFlightWf s = true ↔ s.fault = false ∧ t.toNat < s.cfg.tableCount ∧ isInternal (s.table t) p = true := by
  simp [inFlightWf, h, and_assoc]

theorem inFlightWf_raw {s : State} {ext : Bool} {n taken value : Nat} (h : s.inFlight = some (.raw ext n taken value)) :
    inFlightWf s = true ↔ s.fault = false ∧ taken < n ∧ n ≤ maxRawLen ∧ value < 2 ^ taken := by
  simp [inFlightWf, h, and_assoc]

theorem fault_eq_false_of_inFlight {s : State} {c : InFlight} (h : Inv s) (hc : s.inFlight = some c) : s.fault = false := by
  cases c with
  | walk => exact ((inFlightWf_walk hc).1 h.inFlight).1
  | raw => exact ((inFlightWf_raw hc).1 h.inFlight).1

/-- A command that waits has taken fewer than 16 bits (R108, R163). -/
theorem bitsTaken_lt {s : State} {c : InFlight} (h : Inv s) (hc : s.inFlight = some c) : c.bitsTaken < 16 := by
  cases c with
  | walk t p =>
    obtain ⟨-, -, hi⟩ := (inFlightWf_walk hc).1 h.inFlight
    obtain ⟨hl, -, -, -⟩ := tableWf_of_tables h.tables t
    exact length_lt_of_isInternal hl hi
  | raw ext n taken value =>
    obtain ⟨-, hlt, hn, -⟩ := (inFlightWf_raw hc).1 h.inFlight
    exact hlt.trans_le hn

/-! ### The operations keep the invariant -/

/-- Completing needs the store and the fault record in order, and a status that goes with the record (R31, R33). -/
theorem inv_complete {s : State} {st : ResStatus} {n : Nat} (v : RegWord) (hcfg : s.cfg.Conforming) (htab : TablesWf s)
    (hstatus : StatusWf s) (hn : n ≤ 16) (hst : s.fault = true ↔ st = .fault ∨ st = .rejected) :
    Inv (complete st v n s) :=
  ⟨hcfg, htab, hstatus, ⟨toNat_ofNat_five_le hn, fun hne => if_neg hne, hst⟩, rfl⟩

/-- Completing on a block that is not faulted. -/
theorem inv_complete_of_not_fault {s : State} {st : ResStatus} {n : Nat} (v : RegWord) (h : Inv s) (hf : s.fault = false)
    (hn : n ≤ 16) (hst : st = .ok ∨ st = .none) : Inv (complete st v n s) := by
  refine inv_complete v h.config h.tables h.status hn ?_
  rcases hst with rfl | rfl <;> simp [hf]

theorem inv_raise {s : State} {n : Nat} (c : Cause) (h : Inv s) (hn : n ≤ 16) : Inv (raise c n s) := by
  obtain ⟨hne, hle⟩ : c.code ≠ 0 ∧ c.code.toNat ≤ 9 := by cases c <;> decide
  refine inv_complete (s := { s with fault := true, cause := c.code }) 0 h.config h.tables ?_ hn (by simp)
  exact ⟨⟨fun h0 => absurd h0 hne, fun hf => by cases hf⟩, hle⟩

theorem inv_acknowledge {s : State} (h : Inv s) : Inv (acknowledge s) :=
  inv_complete (s := { s with fault := false, cause := 0 }) 0 h.config h.tables ⟨by simp, Nat.zero_le _⟩ (Nat.zero_le _)
    (by simp)

/-- Writing a well-formed table and completing `OK` (R89, R92). -/
theorem inv_write {s : State} {tab : Table} (t : BitVec 4) (h : Inv s) (hf : s.fault = false)
    (htab : TableWf s.cfg.maxEntries tab) : Inv (complete .ok 0 0 (s.setTable t tab)) :=
  inv_complete (s := s.setTable t tab) 0 h.config (tablesWf_setTable h.tables t htab) h.status (Nat.zero_le _)
    (by simp [hf])

theorem inv_countBit {s : State} (h : Inv s) : Inv (countBit s) :=
  ⟨h.config, h.tables, h.status, h.result, h.inFlight⟩

theorem inv_walkAt {s : State} {t : BitVec 4} {p : Bits} (h : Inv s) (hf : s.fault = false)
    (ht : t.toNat < s.cfg.tableCount) (hp : p.length ≤ 16) : Inv (walkAt t p s) := by
  rcases walkAt_cases t p s with ⟨sym, -, e⟩ | ⟨-, hi, e⟩ | ⟨-, -, e⟩ <;> rw [e]
  · exact inv_complete_of_not_fault _ h hf hp (.inl rfl)
  · exact ⟨h.config, h.tables, h.status, h.result, (inFlightWf_walk rfl).2 ⟨hf, ht, hi⟩⟩
  · exact inv_raise _ h hp

theorem inv_rawAt {s : State} {n taken value : Nat} (ext : Bool) (h : Inv s) (hf : s.fault = false) (hn : n ≤ maxRawLen)
    (hv : value < 2 ^ taken) : Inv (rawAt ext n taken value s) := by
  rcases rawAt_cases ext n taken value s with ⟨-, e⟩ | ⟨hlt, e⟩ <;> rw [e]
  · exact inv_complete_of_not_fault _ h hf hn (.inl rfl)
  · exact ⟨h.config, h.tables, h.status, h.result, (inFlightWf_raw rfl).2 ⟨hf, hlt, hn, hv⟩⟩

theorem inv_takeBit {s : State} {c : InFlight} (b : Bool) (h : Inv s) (hc : s.inFlight = some c) : Inv (takeBit c b s) := by
  cases c with
  | walk t p =>
    obtain ⟨hf, ht, -⟩ := (inFlightWf_walk hc).1 h.inFlight
    have hlt : p.length < 16 := bitsTaken_lt h hc
    exact inv_walkAt (inv_countBit h) hf ht (by simpa using hlt)
  | raw ext n taken value =>
    obtain ⟨hf, -, hn, hv⟩ := (inFlightWf_raw hc).1 h.inFlight
    exact inv_rawAt ext (inv_countBit h) hf hn (pushBit_lt b hv)

theorem inv_takeToken {s : State} {c : InFlight} (tok : Token) (h : Inv s) (hc : s.inFlight = some c) :
    Inv (takeToken c tok s) := by
  cases tok with
  | bit0 => exact inv_takeBit false h hc
  | bit1 => exact inv_takeBit true h hc
  | eos =>
    exact inv_complete_of_not_fault 0 h (fault_eq_false_of_inFlight h hc) (bitsTaken_lt h hc).le (.inr rfl)

theorem inv_withTokens {s : State} (toks : List Token) (h : Inv s) : Inv { s with tokens := toks } :=
  ⟨h.config, h.tables, h.status, h.result, h.inFlight⟩

theorem inv_serve {s : State} (toks : List Token) (h : Inv s) : Inv (serve toks s) :=
  serve_keeps (fun _ tok _ hc h => inv_takeToken tok h hc) (fun toks _ h => inv_withTokens toks h) toks s h

/-! ### Every step keeps the invariant -/

/-- A `DEC` of a table that holds a code begins at an internal node, the root (R103). -/
theorem inv_beginWalk {s : State} {t : BitVec 4} (h : Inv s) (hf : s.fault = false) (ht : t.toNat < s.cfg.tableCount)
    (hn : entries (s.table t) ≠ 0) : Inv { s with inFlight := some (.walk t []) } := by
  obtain ⟨hl, -, -, -⟩ := tableWf_of_tables h.tables t
  exact ⟨h.config, h.tables, h.status, h.result, (inFlightWf_walk rfl).2 ⟨hf, ht, isInternal_root hl hn⟩⟩

/-- The operand checks of an `INS` (R79), one by one. -/
theorem wellFormed_ins_iff {cfg : Config} {t : BitVec 4} {len : BitVec 8} {code : BitVec 16} {sym : Symbol} :
    (Instr.ins t len code sym).wellFormed cfg = true ↔
      tableInRange cfg t ∧ codeLenInRange len ∧ codeFits len code := by
  simp only [Instr.wellFormed, Bool.and_eq_true, decide_eq_true_eq, and_assoc]

theorem inv_carried {s u : State} {d : Decoded} (h : Inv s) (hc : Carried s d u) : Inv u := by
  cases hc with
  | rejected _ hf => exact inv_complete 0 h.config h.tables h.status (Nat.zero_le _) (by simp [hf])
  | acknowledged => exact inv_acknowledge h
  | raised _ c => exact inv_raise c h (Nat.zero_le _)
  | cleared t hf => exact inv_write t h hf (tableWf_nil _)
  | inserted t len code sym hf hw hno hm =>
    obtain ⟨-, hlen, -⟩ := wellFormed_ins_iff.1 hw
    have hcw : minCodeLen ≤ (codeword len code).length ∧ (codeword len code).length ≤ maxCodeLen := by
      rwa [codeword, length_bitsOf]
    exact inv_write t h hf (tableWf_insertEntry sym (tableWf_of_tables h.tables t) hcw hno hm)
  | walked t hf ht hn => exact inv_serve _ (inv_beginWalk h hf ht hn)
  | read n hf hn => exact inv_serve _ (inv_rawAt false h hf hn Nat.one_pos)
  | readExtended n hf hn => exact inv_serve _ (inv_rawAt true h hf hn Nat.one_pos)

/-- The invariant does not speak of the words on the command port. -/
theorem inv_withCmds {s : State} (ws : List CmdWord) (h : Inv s) : Inv { s with cmds := ws } :=
  ⟨h.config, h.tables, h.status, h.result, h.inFlight⟩

/-- Settles O4: a reset, the tokens served to a command in progress, and every outcome of a word taken keep the invariant. -/
theorem everyStepKeepsInv : Obligations.EveryStepKeepsInv := by
  intro s u h hstep
  rcases step_cases hstep with ⟨-, rfl⟩ | ⟨-, -, rfl⟩ | ⟨-, -, -, rfl⟩ | ⟨w, rest, -, -, -, hc⟩
  · exact inv_resetBlock h
  · exact inv_serve s.tokens h
  · exact h
  · exact inv_carried (inv_withCmds rest h) hc

end Sys2Proof.Machine
end

section
/-! The bits of a command, counted (spec/10_state.md R34, spec/41_symbol_decode.md R112), and the sixteen tokens after which
no command waits (spec/70_reset_and_hazards.md R163). -/

namespace Sys2Proof.Machine

/-! ### The bits a command has taken -/

/-- The bits the command shown in `u` has taken: by `RES_NBITS` when it has completed, else those it holds (R112). -/
def bitsOfCommand (u : State) : Nat := if u.inFlight = none then u.resNbits.toNat else bitsInFlight u

theorem bitsOfCommand_waiting {u : State} {c : InFlight} (h : u.inFlight = some c) : bitsOfCommand u = c.bitsTaken := by
  simp [bitsOfCommand, bitsInFlight, h]

theorem bitsOfCommand_complete {n : Nat} (st : ResStatus) (v : RegWord) (s : State) (h : n ≤ 16) :
    bitsOfCommand (complete st v n s) = n :=
  calc bitsOfCommand (complete st v n s) = (BitVec.ofNat 5 n).toNat := if_pos rfl
    _ = n % 2 ^ 5 := BitVec.toNat_ofNat ..
    _ = n := Nat.mod_eq_of_lt (by omega)

/-- `BITCNT` stands at `count` and the bits its command has taken (R112). -/
def CountsFrom (count : RegWord) (u : State) : Prop := u.bitcnt = count + BitVec.ofNat 32 (bitsOfCommand u)

theorem countsFrom_complete {count : RegWord} {n : Nat} {s : State} (st : ResStatus) (v : RegWord) (hn : n ≤ 16)
    (h : s.bitcnt = count + BitVec.ofNat 32 n) : CountsFrom count (complete st v n s) := by
  rw [CountsFrom, bitsOfCommand_complete st v s hn]
  exact h

theorem countsFrom_waiting {count : RegWord} {c : InFlight} {s : State}
    (h : s.bitcnt = count + BitVec.ofNat 32 c.bitsTaken) :
    CountsFrom count { s with inFlight := some c } := by
  rw [CountsFrom, bitsOfCommand_waiting rfl]
  exact h

theorem countsFrom_walkAt {count : RegWord} {t : BitVec 4} {p : Bits} {s : State} (hp : p.length ≤ 16)
    (h : s.bitcnt = count + BitVec.ofNat 32 p.length) : CountsFrom count (walkAt t p s) := by
  rcases walkAt_cases t p s with ⟨sym, -, e⟩ | ⟨-, -, e⟩ | ⟨-, -, e⟩ <;> rw [e]
  · exact countsFrom_complete _ _ hp h
  · exact countsFrom_waiting (c := .walk t p) h
  · exact countsFrom_complete (s := { s with fault := true, cause := Cause.invalidCode.code }) _ _ hp h

theorem countsFrom_rawAt {count : RegWord} {n taken value : Nat} {s : State} (ext : Bool) (hle : taken ≤ n) (hn : n ≤ 16)
    (h : s.bitcnt = count + BitVec.ofNat 32 taken) : CountsFrom count (rawAt ext n taken value s) := by
  rcases rawAt_cases ext n taken value s with ⟨hge, e⟩ | ⟨-, e⟩ <;> rw [e]
  · obtain rfl := Nat.le_antisymm hle hge
    exact countsFrom_complete _ _ hn h
  · exact countsFrom_waiting (c := .raw ext n taken value) h

/-- One bit more is counted (R34). -/
theorem countBit_count {count : RegWord} {k : Nat} {s : State} (h : s.bitcnt = count + BitVec.ofNat 32 k) :
    (countBit s).bitcnt = count + BitVec.ofNat 32 (k + 1) := by
  rw [countBit_bitcnt, h, BitVec.ofNat_add, BitVec.add_assoc]
  rfl

theorem countsFrom_takeBit {count : RegWord} {c : InFlight} {s : State} (b : Bool) (hinv : Inv s)
    (hc : s.inFlight = some c) (h : s.bitcnt = count + BitVec.ofNat 32 c.bitsTaken) :
    CountsFrom count (takeBit c b s) := by
  cases c with
  | walk t p =>
    have hlt : p.length < 16 := bitsTaken_lt hinv hc
    have hlen : (p ++ [b]).length = p.length + 1 := List.length_append
    exact countsFrom_walkAt (hlen ▸ hlt) (hlen ▸ countBit_count h)
  | raw ext n taken value =>
    obtain ⟨-, hlt, hn, -⟩ := (inFlightWf_raw hc).1 hinv.inFlight
    exact countsFrom_rawAt ext hlt hn (countBit_count h)

theorem countsFrom_takeToken {count : RegWord} {c : InFlight} {s : State} (tok : Token) (hinv : Inv s)
    (hc : s.inFlight = some c) (h : CountsFrom count s) : CountsFrom count (takeToken c tok s) := by
  rw [CountsFrom, bitsOfCommand_waiting hc] at h
  cases tok with
  | bit0 => exact countsFrom_takeBit false hinv hc h
  | bit1 => exact countsFrom_takeBit true hinv hc h
  | eos => exact countsFrom_complete .none 0 (bitsTaken_lt hinv hc).le h

theorem countsFrom_serve {count : RegWord} {s : State} (toks : List Token) (hinv : Inv s) (h : CountsFrom count s) :
    CountsFrom count (serve toks s) := by
  have hkept : Inv (serve toks s) ∧ CountsFrom count (serve toks s) :=
    serve_keeps (P := fun v => Inv v ∧ CountsFrom count v)
      (fun _ tok _ hc ⟨hinv, h⟩ => ⟨inv_takeToken tok hinv hc, countsFrom_takeToken tok hinv hc h⟩)
      (fun toks _ ⟨hinv, h⟩ => ⟨inv_withTokens toks hinv, h⟩) toks s ⟨hinv, h⟩
  exact hkept.2

/-- A command that is taken counts from the `BITCNT` it finds. -/
theorem countsFrom_carried {s u : State} {d : Decoded} (hinv : Inv s) (h : Carried s d u) : CountsFrom s.bitcnt u := by
  have hzero : s.bitcnt = s.bitcnt + BitVec.ofNat 32 0 := by simp
  cases h with
  | rejected | acknowledged | raised | cleared | inserted => exact hzero
  | walked t hf ht hn =>
    exact countsFrom_serve _ (inv_beginWalk hinv hf ht hn) (countsFrom_waiting (c := .walk t []) hzero)
  | read n hf hn =>
    exact countsFrom_serve _ (inv_rawAt false hinv hf hn Nat.one_pos) (countsFrom_rawAt false (Nat.zero_le _) hn hzero)
  | readExtended n hf hn =>
    exact countsFrom_serve _ (inv_rawAt true hinv hf hn Nat.one_pos) (countsFrom_rawAt true (Nat.zero_le _) hn hzero)

/-- Settles O48: a command in progress holds bits that `BITCNT` has counted, and each token keeps the count. -/
theorem bitAccounting : Obligations.BitAccounting := by
  intro s u hinv hr hbusy h
  rcases step_cases h with ⟨hr', -⟩ | ⟨-, ⟨c, hc⟩, rfl⟩ | ⟨-, hidle, hcmds, -⟩ | ⟨w, rest, -, hidle, -, hcarried⟩
  · simp [hr] at hr'
  · have hbits : bitsInFlight s = bitsOfCommand s := by simp [bitsOfCommand, hc]
    have hcount : CountsFrom (s.bitcnt - BitVec.ofNat 32 (bitsInFlight s)) s := by
      rw [CountsFrom, ← hbits, BitVec.sub_add_cancel]
    have hserve := countsFrom_serve s.tokens hinv hcount
    rw [CountsFrom, bitsOfCommand] at hserve
    rw [hserve, add_right_comm, sub_add_cancel]
  · simp [hidle, hcmds] at hbusy
  · have hcount := countsFrom_carried (inv_withCmds rest hinv) hcarried
    rw [CountsFrom, bitsOfCommand] at hcount
    simpa [bitsInFlight, hidle] using hcount

/-! ### Sixteen tokens -/

/-- A token ends the command that takes it, or is one bit more that it holds. -/
theorem tokenEffect_idle_or_bit {c : InFlight} {tok : Token} {s u : State} (h : TokenEffect c s tok u) :
    u.inFlight = none ∨ bitsInFlight u = c.bitsTaken + 1 := by
  cases h with
  | ended | leaf | off | full => exact .inl rfl
  | inner b t p hw => subst hw; exact .inr List.length_append
  | partly b ext n taken value hw => subst hw; exact .inr rfl

/-- Tokens that bring a command to 16 bits end it, since a command that waits holds fewer (R163). -/
theorem serve_done : ∀ (toks : List Token) (s : State), Inv s → 16 ≤ bitsInFlight s + toks.length →
    (serve toks s).inFlight = none
  | [], s, hinv, h => by
    rcases idle_or_waiting s with hi | ⟨c, hi⟩
    · exact hi
    · have hlt := bitsTaken_lt hinv hi
      have hge : 16 ≤ c.bitsTaken := by simpa [bitsInFlight, hi] using h
      omega
  | tok :: rest, s, hinv, h => by
    rcases idle_or_waiting s with hi | ⟨c, hi⟩
    · rw [serve_idle _ hi]
      exact hi
    · rw [serve_cons _ _ hi]
      rcases tokenEffect_idle_or_bit (takeToken_effect c tok s) with hdone | hbit
      · rw [serve_idle _ hdone]
        exact hdone
      · refine serve_done rest _ (inv_takeToken tok hinv hi) ?_
        have hge : 16 ≤ c.bitsTaken + (rest.length + 1) := by simpa [bitsInFlight, hi] using h
        omega

theorem carried_done {s u : State} {d : Decoded} (hinv : Inv s) (h : Carried s d u) (htok : 16 ≤ s.tokens.length) :
    u.inFlight = none := by
  have hserve {v : State} (hv : Inv v) : (serve s.tokens v).inFlight = none :=
    serve_done s.tokens v hv (htok.trans (Nat.le_add_left ..))
  cases h with
  | rejected | acknowledged | raised | cleared | inserted => rfl
  | walked t hf ht hn => exact hserve (inv_beginWalk hinv hf ht hn)
  | read n hf hn => exact hserve (inv_rawAt false hinv hf hn Nat.one_pos)
  | readExtended n hf hn => exact hserve (inv_rawAt true hinv hf hn Nat.one_pos)

theorem accept_idle {body : State → State} {s : State} (h : s.inFlight = none) : ∃ u, accept body s = .next u := by
  cases hf : s.fault with
  | true => exact ⟨_, accept_faulted h hf⟩
  | false => exact ⟨_, accept_ready ⟨h, hf⟩⟩

/-- Every command on an idle block answers a next state. -/
theorem exec_idle (i : Instr) {s : State} (h : s.inFlight = none) : ∃ u, exec i s = .next u := by
  cases i with
  | clr | ins | dec | rcv | rcvx =>
    simp only [exec, execClr, execIns, execDec, execRcv, execRcvx]
    exact accept_idle h
  | ack => exact ⟨_, acceptWhileFaulted_idle h⟩

/-- Settles O51: every command on an idle block answers a next state, and with 16 tokens it has ended there. -/
theorem sixteenTokensCompleteEveryCommand : Obligations.SixteenTokensCompleteEveryCommand := by
  intro i s hinv hidle htok
  obtain ⟨u, h⟩ := exec_idle i hidle
  exact ⟨u, h, carried_done hinv (exec_carried h).2 htok⟩

end Sys2Proof.Machine
end

section
/-! What a step does (spec/70_reset_and_hazards.md, spec/60_exceptions.md section 2): reset, the wait, the word taken, and a
command that is resumed. -/

namespace Sys2Proof.Machine

/-! ### Reset and the wait -/

/-- Settles O2: `resetBlock` writes the reset values and keeps the configuration and the ports. -/
theorem rstWinsAndResetsEverything : Obligations.RstWinsAndResetsEverything := fun _ hr => step_rst hr

/-- A command in progress goes on with the tokens offered (R156). -/
theorem step_inFlight {s : State} (hr : s.rst = false) (hw : s.inFlight ≠ none) : step s = .next (serve s.tokens s) := by
  simp [step, hr, Option.isSome_iff_ne_none, hw, takeTokens]

theorem step_noWord {s : State} (hr : s.rst = false) (hidle : s.inFlight = none) (hc : s.cmds = []) : step s = .next s := by
  simp [step, hr, hidle, fetch, hc]

/-- Settles O7: with no word nothing is fetched, and with no token nothing is served. -/
theorem waitingChangesNothing : Obligations.WaitingChangesNothing := by
  intro s hr
  refine ⟨step_noWord hr, fun hw htok => ?_⟩
  rw [step_inFlight hr hw, htok, serve_nil, ← htok]

/-! ### The word taken -/

/-- Settles O6: the step takes the word at the head of the port, and the word's decoding names the meaning. -/
theorem stepRunsTheDecodedCommand : Obligations.StepRunsTheDecodedCommand := by
  intro s w rest i hr hidle hc hd
  rw [step_takesWord hr hidle hc, acceptWord, hd]

theorem acceptWhileFaulted_busy {body : State → State} {s : State} (h : s.inFlight ≠ none) :
    acceptWhileFaulted body s = .fault .commandInProgress := by
  simp [acceptWhileFaulted, Option.isSome_iff_ne_none, h]

/-- Settles O8: every meaning first asks whether a command is in progress. -/
theorem noCommandIsTakenWhileOneIsInProgress : Obligations.NoCommandIsTakenWhileOneIsInProgress := by
  intro i s hw
  cases i with
  | clr | ins | dec | rcv | rcvx => simp only [exec, execClr, execIns, execDec, execRcv, execRcvx, accept_busy hw]
  | ack => exact acceptWhileFaulted_busy hw

/-- An idle block answers every word with a next state, legal or not. -/
theorem acceptWord_idle (w : CmdWord) {s : State} (h : s.inFlight = none) : ∃ u, acceptWord w s = .next u := by
  unfold acceptWord
  split
  · exact exec_idle _ h
  · exact accept_idle h

/-- Settles O5: a step resets, serves tokens, waits for a word, or takes one on an idle block. -/
theorem everyStepAnswersANextState : Obligations.EveryStepAnswersANextState := by
  intro s
  rcases hr : s.rst with _ | _
  · by_cases hidle : s.inFlight = none
    · rcases hc : s.cmds with _ | ⟨w, rest⟩
      · exact ⟨_, step_noWord hr hidle hc⟩
      · rw [step_takesWord hr hidle hc]
        exact acceptWord_idle w hidle
    · exact ⟨_, step_inFlight hr hidle⟩
  · exact ⟨_, step_rst hr⟩

/-! ### What a command that still waits has changed (R31, R37) -/

/-- `u` shows the tables and registers of `s`, `BITCNT` aside. -/
structure SameRegisters (s u : State) : Prop where
  tables    : u.tables = s.tables
  fault     : u.fault = s.fault
  cause     : u.cause = s.cause
  resStatus : u.resStatus = s.resStatus
  resNbits  : u.resNbits = s.resNbits
  resValue  : u.resValue = s.resValue

theorem SameRegisters.trans {s u v : State} (h : SameRegisters s u) (h' : SameRegisters u v) : SameRegisters s v :=
  ⟨h'.tables.trans h.tables, h'.fault.trans h.fault, h'.cause.trans h.cause, h'.resStatus.trans h.resStatus,
    h'.resNbits.trans h.resNbits, h'.resValue.trans h.resValue⟩

theorem tokenEffect_sameRegisters {c : InFlight} {tok : Token} {s u : State} (h : TokenEffect c s tok u)
    (hw : u.inFlight ≠ none) : SameRegisters s u := by
  cases h with
  | ended | leaf | off | full => exact absurd rfl hw
  | inner | partly => exact ⟨rfl, rfl, rfl, rfl, rfl, rfl⟩

theorem rawAt_sameRegisters {ext : Bool} {n taken value : Nat} {s : State}
    (hw : (rawAt ext n taken value s).inFlight ≠ none) : SameRegisters s (rawAt ext n taken value s) := by
  rcases rawAt_cases ext n taken value s with ⟨-, e⟩ | ⟨-, e⟩ <;> rw [e] at hw ⊢
  · exact absurd rfl hw
  · exact ⟨rfl, rfl, rfl, rfl, rfl, rfl⟩

/-- A command that still waits was waiting before each token too. -/
theorem waiting_of_serve {toks : List Token} {s : State} (hw : (serve toks s).inFlight ≠ none) : s.inFlight ≠ none := by
  intro hi
  rw [serve_idle _ hi] at hw
  exact hw hi

/-- A command that still waits has taken all the tokens, and shows `BITCNT` only (R37). -/
theorem serve_waiting : ∀ {toks : List Token} {s : State}, (serve toks s).inFlight ≠ none →
    (serve toks s).tokens = [] ∧ SameRegisters s (serve toks s)
  | [], _, _ => ⟨rfl, rfl, rfl, rfl, rfl, rfl, rfl⟩
  | tok :: rest, s, hw => by
    obtain ⟨c, hc⟩ := Option.ne_none_iff_exists'.1 (waiting_of_serve hw)
    rw [serve_cons _ _ hc] at hw ⊢
    obtain ⟨htok, hrest⟩ := serve_waiting hw
    exact ⟨htok, (tokenEffect_sameRegisters (takeToken_effect c tok s) (waiting_of_serve hw)).trans hrest⟩

theorem carried_waiting {s u : State} {d : Decoded} (h : Carried s d u) (hw : u.inFlight ≠ none) :
    u.tokens = [] ∧ SameRegisters s u := by
  cases h with
  | rejected | acknowledged | raised | cleared | inserted => exact absurd rfl hw
  | walked t =>
    have hbegin : SameRegisters s { s with inFlight := some (.walk t []) } := ⟨rfl, rfl, rfl, rfl, rfl, rfl⟩
    obtain ⟨htok, hsame⟩ := serve_waiting hw
    exact ⟨htok, hbegin.trans hsame⟩
  | read | readExtended =>
    obtain ⟨htok, hsame⟩ := serve_waiting hw
    exact ⟨htok, (rawAt_sameRegisters (waiting_of_serve hw)).trans hsame⟩

/-- Settles O49: every token that leaves the command waiting changes `BITCNT` alone, and no token touches the command port. -/
theorem waitingCommandShowsBitcntOnly : Obligations.WaitingCommandShowsBitcntOnly := by
  intro s u hr h
  constructor
  · intro hw
    suffices hsame : u.tokens = [] ∧ SameRegisters s u by
      obtain ⟨htok, hsame⟩ := hsame
      exact ⟨hsame.tables, hsame.fault, hsame.cause, hsame.resStatus, hsame.resNbits, hsame.resValue, htok⟩
    rcases step_cases h with ⟨hr', -⟩ | ⟨-, -, rfl⟩ | ⟨-, hidle, -, rfl⟩ | ⟨w, rest, -, -, -, hc⟩
    · simp [hr] at hr'
    · exact serve_waiting hw
    · exact absurd hidle hw
    · have htaken : SameRegisters s { s with cmds := rest } := ⟨rfl, rfl, rfl, rfl, rfl, rfl⟩
      obtain ⟨htok, hsame⟩ := carried_waiting hc hw
      exact ⟨htok, htaken.trans hsame⟩
  · intro hw
    rw [step_inFlight hr hw] at h
    cases h
    exact (serve_sameStore s.tokens s).cmds

/-! ### A command that is resumed -/

theorem rawAt_withTokens (ext : Bool) (n taken value : Nat) (s : State) (toks : List Token) :
    rawAt ext n taken value { s with tokens := toks } = { rawAt ext n taken value s with tokens := toks } := by
  unfold rawAt
  split <;> rfl

/-- A command that waits began at a state `v` that does not depend on the tokens offered, and has been served from there. -/
theorem exec_waiting {i : Instr} {s t : State} (h : exec i s = .next t) (hw : t.inFlight ≠ none) :
    ∃ v, v.rst = s.rst ∧ t = serve s.tokens v ∧
      ∀ toks, exec i { s with tokens := toks } = .next (serve toks v) := by
  obtain ⟨hidle, hc⟩ := exec_carried h
  have hraw (ext : Bool) (n : BitVec 8) (hf : s.fault = false) (hn : rawLenInRange n) (toks : List Token) :
      exec (if ext then .rcvx n else .rcv n) { s with tokens := toks } = .next (serve toks (rawAt ext n.toNat 0 0 s)) := by
    rw [exec_raw_ready (s := { s with tokens := toks }) ext ⟨hidle, hf⟩ hn, rawAt_withTokens, serve_withTokens]
  cases hc with
  | rejected | acknowledged | raised | cleared | inserted => exact absurd rfl hw
  | walked tbl hf ht hn =>
    refine ⟨{ s with inFlight := some (.walk tbl []) }, rfl, rfl, fun toks => ?_⟩
    rw [exec_dec_ready (s := { s with tokens := toks }) ⟨hidle, hf⟩ ht hn]
    exact congrArg _ (serve_withTokens toks { s with inFlight := some (.walk tbl []) } toks)
  | read n hf hn => exact ⟨_, (rawAt_sameStore ..).rst, rfl, hraw false n hf hn⟩
  | readExtended n hf hn => exact ⟨_, (rawAt_sameStore ..).rst, rfl, hraw true n hf hn⟩

/-- Settles O50: both sides serve the first tokens, which leave the command waiting, and then the others. -/
theorem resumedCommandEndsAsIfAllTokensWereThere : Obligations.ResumedCommandEndsAsIfAllTokensWereThere := by
  intro i s t more hr h hw
  obtain ⟨v, hv, rfl, hexec⟩ := exec_waiting h hw
  have hrst : (serve s.tokens v).rst = false := ((serve_sameStore s.tokens v).rst.trans hv).trans hr
  calc step { serve s.tokens v with tokens := more }
      = .next (serve more { serve s.tokens v with tokens := more }) :=
        step_inFlight (s := { serve s.tokens v with tokens := more }) hrst hw
    _ = .next (serve more (serve s.tokens v)) := by rw [serve_withTokens]
    _ = .next (serve (s.tokens ++ more) v) := by rw [serve_append, if_pos (Option.isSome_iff_ne_none.2 hw)]
    _ = exec i { s with tokens := s.tokens ++ more } := (hexec _).symm

/-! ### Which commands change an entry count (R26) -/

theorem carried_cmds {s u : State} {d : Decoded} (h : Carried s d u) : u.cmds = s.cmds := by
  cases h with
  | rejected | acknowledged | raised | cleared | inserted => rfl
  | walked => exact (serve_sameStore s.tokens _).cmds
  | read | readExtended => exact ((rawAt_sameStore ..).trans (serve_sameStore s.tokens _)).cmds

/-- A codeword that conflicts with no entry adds one to the table it is written into (R26), and none where the build has no
such table. -/
theorem entries_setTable_insertEntry {s : State} {t : BitVec 4} {cw : Bits} (sym : Symbol)
    (hno : conflicts (s.table t) cw = false) :
    (s.setTable t (insertEntry cw sym (s.table t))).table t = s.table t ∨
      entries ((s.setTable t (insertEntry cw sym (s.table t))).table t) = entries (s.table t) + 1 := by
  by_cases ht : t.toNat < s.tables.length
  · right
    rw [table_setTable_same s t _ ht]
    refine entries_insertEntry sym fun e he heq => ?_
    exact (conflicts_eq_false_iff.1 hno e he).1 (heq ▸ List.prefix_rfl)
  · left
    refine table_congr ?_ t
    rw [setTable_tables, List.set_eq_of_length_le (Nat.le_of_not_lt ht)]

/-- `u` is `s` after a `CLR` of t that completed `OK`, or an `INS` into t that did. -/
def EntriesLoaded (t : BitVec 4) (s : State) (d : Decoded) (u : State) : Prop :=
  (d = .command (.clr t) ∧ u.resStatus = .ok ∧ entries (u.table t) = 0) ∨
    (∃ len code sym, d = .command (.ins t len code sym) ∧ u.resStatus = .ok ∧
      entries (u.table t) = entries (s.table t) + 1)

theorem carried_entries {s u : State} {d : Decoded} (h : Carried s d u) (t : BitVec 4) :
    entries (u.table t) = entries (s.table t) ∨ (s.fault = false ∧ EntriesLoaded t s d u) := by
  cases h with
  | rejected | acknowledged | raised => exact .inl rfl
  | walked => exact .inl (congrArg entries (table_congr (serve_sameStore s.tokens _).tables t))
  | read | readExtended =>
    exact .inl (congrArg entries (table_congr ((rawAt_sameStore ..).trans (serve_sameStore s.tokens _)).tables t))
  | cleared t' hf =>
    by_cases ht : t = t'
    · subst ht
      exact .inr ⟨hf, .inl ⟨rfl, rfl, congrArg entries (table_setTable_nil s t)⟩⟩
    · exact .inl (congrArg entries (table_setTable_other s [] ht))
  | inserted t' len code sym hf _ hno =>
    by_cases ht : t = t'
    · subst ht
      rcases entries_setTable_insertEntry sym hno with hsame | hadd
      · exact .inl (congrArg entries hsame)
      · exact .inr ⟨hf, .inr ⟨len, code, sym, rfl, rfl, hadd⟩⟩
    · exact .inl (congrArg entries (table_setTable_other s _ ht))

/-- Settles O52: only a word taken can load a table, and of these only `CLR` and `INS` that complete `OK`. -/
theorem entriesChangeByClrAndInsOnly : Obligations.EntriesChangeByClrAndInsOnly := by
  intro s u t hr h
  rcases step_cases h with ⟨hr', -⟩ | ⟨-, -, rfl⟩ | ⟨-, -, -, rfl⟩ | ⟨w, rest, -, hidle, hc, hcarried⟩
  · simp [hr] at hr'
  · exact .inl (congrArg entries (table_congr (serve_sameStore s.tokens s).tables t))
  · exact .inl rfl
  · have hhead : s.cmds.head? = some w := by rw [hc]; rfl
    have htail : u.cmds = s.cmds.tail := by rw [hc]; exact carried_cmds hcarried
    rcases carried_entries hcarried t with hsame | ⟨hf, ⟨hd, hok, hzero⟩ | ⟨len, code, sym, hd, hok, hadd⟩⟩
    · exact .inl hsame
    · exact .inr (.inl ⟨hidle, hf, htail, w, hhead, hd, hok, hzero⟩)
    · exact .inr (.inr ⟨hidle, hf, htail, w, len, code, sym, hhead, hd, hok, hadd⟩)

end Sys2Proof.Machine
end

section
/-! Command words (spec/30_encoding.md): the round trip of `encode` and `decode` (R72, R80), the match and mask of each command
(R83), and the stored form of a word (spec/20_memory.md R59). -/

namespace Sys2Proof.Machine

/-! ### The round trip (R80) -/

/-- Settles O12: each field of a command's word is the operand that went in, and the fields that must be zero are. -/
theorem decodeOfEncodeIsTheCommand : Obligations.DecodeOfEncodeIsTheCommand := decode_encode

/-- Settles O13: a word that decodes has zeros where its command has no operand, so it is the pack of its operands. -/
theorem oneWordSpellsEachCommand : Obligations.OneWordSpellsEachCommand := fun _ _ => encode_of_decode

/-- Settles O17: each word is the word of the command beside it. -/
theorem wordsOfTheSpecDecode : Obligations.WordsOfTheSpecDecode := by
  have hword (w : CmdWord) (i : Instr) (h : encode i = w) : decode w = .command i := h ▸ decode_encode i
  exact ⟨hword _ _ (by decide), hword _ _ (by decide), hword _ _ (by decide), hword _ _ (by decide), hword _ _ (by decide),
    hword _ _ (by decide)⟩

/-! ### Match and mask (R83) -/

/-- The word `w` has the `OP` of an operation, and zeros in the fields that the operation does not use (R72, R80). -/
def HasFieldsOf (op : Op) (w : CmdWord) : Prop :=
  opField w = op.code ∧ reservedFieldSet w = false ∧ unusedFieldSet op w = false

theorem encode_hasFieldsOf (i : Instr) : HasFieldsOf i.op (encode i) := by
  cases i with
  | clr t => exact Laws.Encoding.clr t
  | ins t len code sym => exact Laws.Encoding.ins t len code sym
  | dec t => exact Laws.Encoding.dec t
  | rcv n => exact Laws.Encoding.rcv n
  | rcvx n => exact Laws.Encoding.rcvx n
  | ack => exact Laws.Encoding.ack

theorem op_operands (op : Op) (w : CmdWord) : (operands w op).op = op := by cases op <;> rfl

/-- A word decodes to a command of an operation exactly when it has the operation's fields (R79). -/
theorem decodes_iff_hasFieldsOf (w : CmdWord) (op : Op) :
    (∃ i, decode w = .command i ∧ i.op = op) ↔ HasFieldsOf op w := by
  constructor
  · rintro ⟨i, hd, rfl⟩
    rw [← encode_of_decode hd]
    exact encode_hasFieldsOf i
  · rintro ⟨hop, hres, hunused⟩
    refine ⟨operands w op, ?_, op_operands op w⟩
    simp [decode, hop, opOf_code, hres, hunused]

/-- The mask of an operand field: open where the operation uses the field, else all its bits (R83). -/
def maskUnless (n : Nat) (used : Bool) : BitVec n := if used then 0 else BitVec.allOnes n

theorem and_maskUnless_eq_zero_iff {n : Nat} {x : BitVec n} {used : Bool} :
    x &&& maskUnless n used = 0 ↔ used = true ∨ x = 0 := by
  cases used <;> simp [maskUnless]

/-- The match and the mask of each command, field by field. -/
theorem shape_eq_packWord (op : Op) : op.shape =
    (packWord op.code 0 0 0 0 0 0,
      packWord (BitVec.allOnes 8) (maskUnless 4 op.uses.tbl) (BitVec.allOnes 4) (maskUnless 8 op.uses.len)
        (maskUnless 8 op.uses.sym) (BitVec.allOnes 16) (maskUnless 16 op.uses.code)) := by
  cases op <;> decide

theorem packWord_eq_iff {op op' : BitVec 8} {tbl tbl' rsv1 rsv1' : BitVec 4} {len len' sym sym' : BitVec 8}
    {rsv2 rsv2' code code' : BitVec 16} :
    packWord op tbl rsv1 len sym rsv2 code = packWord op' tbl' rsv1' len' sym' rsv2' code' ↔
      op = op' ∧ tbl = tbl' ∧ rsv1 = rsv1' ∧ len = len' ∧ sym = sym' ∧ rsv2 = rsv2' ∧ code = code' := by
  refine ⟨packWord_inj op tbl rsv1 len sym rsv2 code, ?_⟩
  rintro ⟨rfl, rfl, rfl, rfl, rfl, rfl, rfl⟩
  rfl

/-- A word has a command's match under its mask exactly when it has the operation's fields. -/
theorem hasShape_iff_hasFieldsOf (op : Op) (w : CmdWord) : hasShape op w = true ↔ HasFieldsOf op w := by
  have hw := packWord_fields w
  calc hasShape op w = true
      ↔ w &&& op.shape.2 = op.shape.1 := beq_iff_eq
    _ ↔ opField w = op.code ∧ (op.uses.tbl = true ∨ tblField w = 0) ∧ rsv1Field w = 0 ∧
          (op.uses.len = true ∨ lenField w = 0) ∧ (op.uses.sym = true ∨ symField w = 0) ∧ rsv2Field w = 0 ∧
          (op.uses.code = true ∨ codeField w = 0) := by
        rw [shape_eq_packWord]
        conv_lhs => rw [← hw]
        simp only [packWord_and, packWord_eq_iff, and_maskUnless_eq_zero_iff, BitVec.and_allOnes]
    _ ↔ HasFieldsOf op w := by
        simp only [HasFieldsOf, reservedFieldSet, unusedFieldSet, Bool.or_eq_false_iff, Bool.and_eq_false_iff,
          Bool.not_eq_false', bne_eq_false_iff_eq]
        constructor
        · rintro ⟨hop, htbl, hrsv1, hlen, hsym, hrsv2, hcode⟩
          exact ⟨hop, ⟨hrsv1, hrsv2⟩, ⟨⟨htbl, hlen⟩, hsym⟩, hcode⟩
        · rintro ⟨hop, ⟨hrsv1, hrsv2⟩, ⟨⟨htbl, hlen⟩, hsym⟩, hcode⟩
          exact ⟨hop, htbl, hrsv1, hlen, hsym, hrsv2, hcode⟩

/-- Settles O15: decoding to a command and having its shape both say what the word's fields are. -/
theorem decodesExactlyWhenItHasTheShape : Obligations.DecodesExactlyWhenItHasTheShape := fun w op =>
  (decodes_iff_hasFieldsOf w op).trans (hasShape_iff_hasFieldsOf op w).symm

/-! ### The stored word (R59) -/

/-- A word is its eight bytes, one after the other. -/
theorem append_bytes (w : CmdWord) :
    w.extractLsb' 56 8 ++ (w.extractLsb' 48 8 ++ (w.extractLsb' 40 8 ++ (w.extractLsb' 32 8 ++
      (w.extractLsb' 24 8 ++ (w.extractLsb' 16 8 ++ (w.extractLsb' 8 8 ++ w.extractLsb' 0 8)))))) = w := by
  ext i hi
  grind

theorem wordOfBytes_bytesOfWord (w : CmdWord) (rest : List Byte) :
    wordOfBytes (bytesOfWord w ++ rest) = some (w, rest) :=
  congrArg (fun v => some (v, rest)) (append_bytes w)

/-- Settles O16: the bytes as `bytesOfWord` lists them, and read back by `append_bytes`. -/
theorem storedWordIsBigEndian : Obligations.StoredWordIsBigEndian := by
  intro w rest
  refine ⟨fun k hk => ?_, rfl, wordOfBytes_bytesOfWord w rest⟩
  interval_cases k <;> rfl

end Sys2Proof.Machine
end

section
/-! The table load commands when they complete `OK` (spec/40_table_load.md R89, R92), the codeword that `INS` names
(spec/00_scope.md R10), and a table as a map (spec/10_state.md R25). -/

namespace Sys2Proof.Machine

/-! ### The codeword of an INS (R10, R77) -/

theorem valueOf_cons (b : Bool) (bs : Bits) : valueOf (b :: bs) = b.toNat * 2 ^ bs.length + valueOf bs := by
  rw [valueOf, List.foldl_cons, foldl_pushBit]
  simp [pushBit]

/-- The bits of a number spell its value, as far as they reach. -/
theorem valueOf_bitsOf : ∀ l c : Nat, valueOf (bitsOf l c) = c % 2 ^ l
  | 0, c => by simp [bitsOf, Nat.mod_one]
  | l + 1, c => by
    rw [bitsOf, valueOf_cons, length_bitsOf, valueOf_bitsOf l c, Nat.toNat_testBit, Nat.mod_pow_succ,
      Nat.add_comm, Nat.mul_comm]

/-- Settles O20: a code value that fits its length is not cut by the codeword. -/
theorem codewordSpellsItsCodeValue : Obligations.CodewordSpellsItsCodeValue := by
  intro len code hfits
  exact ⟨length_bitsOf .., by rw [codeword, valueOf_bitsOf, Nat.mod_eq_of_lt hfits]⟩

/-! ### Writing a table -/

/-- A load that completes `OK` writes its table and the result registers, nothing else (R33). -/
theorem write_idle {s : State} (t : BitVec 4) (tab : Table) (h : s.inFlight = none) :
    complete .ok 0 0 (s.setTable t tab) =
      { s with tables := s.tables.set t.toNat tab, resStatus := .ok, resNbits := 0, resValue := 0 } :=
  complete_idle (s := s.setTable t tab) .ok 0 0 h

theorem exec_clr_ready {s : State} {t : BitVec 4} (h : Ready s) (ht : t.toNat < s.cfg.tableCount) :
    exec (.clr t) s = .next (clearTable t s) := by
  rw [exec, execClr, accept_ready h, lacksTable_eq_false ht, if_neg Bool.false_ne_true]

/-- Settles O18: `CLR` writes the empty table, which answers nothing. -/
theorem clrEmptiesItsTable : Obligations.ClrEmptiesItsTable := by
  intro s t hready ht
  have htab : (clearTable t s).table t = [] := table_setTable_nil s t
  have k := write_loadKeeps t [] hready.1
  refine ⟨clearTable t s, exec_clr_ready hready ht, write_idle t [] hready.1, fun c => ?_, ?_, k.count, k.others⟩
  · rw [htab, lookup_nil]
  · rw [htab]
    rfl

theorem insertCode_of_room {t : BitVec 4} {cw : Bits} {s : State} (sym : Symbol)
    (hc : conflicts (s.table t) cw = false) (hm : entries (s.table t) < s.cfg.maxEntries) :
    insertCode t cw sym s = complete .ok 0 0 (s.setTable t (insertEntry cw sym (s.table t))) := by
  simp [insertCode, hc, Nat.not_le.2 hm]

/-- Settles O19: both checks of the table pass, and the table answers after the write as `lookup_insertEntry` says. -/
theorem insAddsItsCodeword : Obligations.InsAddsItsCodeword := by
  intro s t len code sym hready hlen hw hno hm
  obtain ⟨ht, -, -⟩ := wellFormed_ins_iff.1 hw
  generalize hcw : codeword len code = cw at hno ⊢
  have hconf := conflicts_eq_false_iff.2 hno
  have hexec := exec_ins_ready hready hw
  rw [hcw, insertCode_of_room sym hconf hm] at hexec
  have htab : (complete .ok 0 0 (s.setTable t (insertEntry cw sym (s.table t)))).table t =
      insertEntry cw sym (s.table t) := table_setTable_same s t _ (hlen.symm ▸ ht)
  have hnew : ∀ e ∈ s.table t, e.code ≠ cw := fun e he heq => (hno e he).1 (heq ▸ List.prefix_rfl)
  have k := write_loadKeeps t (insertEntry cw sym (s.table t)) hready.1
  refine ⟨_, hexec, write_idle t _ hready.1, ?_, fun c hc => ?_, ?_, k.count, k.others⟩
  · rw [htab, lookup_insertEntry, if_pos rfl]
  · rw [htab, lookup_insertEntry, if_neg (Ne.symm hc)]
  · rw [htab, entries_insertEntry sym hnew]

/-! ### A table as a map (R25) -/

/-- The entries of a table, none of whose codewords begins another (R23), are the answers of its map. -/
theorem mem_iff_lookup {tab : Table} (hp : PrefixFree tab) (e : Entry) : e ∈ tab ↔ lookup tab e.code = some e.sym :=
  ⟨lookup_of_mem hp, mem_of_lookup⟩

/-- Two tables in canonical form with the same entries are the same list. -/
theorem eq_of_rising {a b : Table} (ha : Rising a) (hb : Rising b) (h : ∀ e, e ∈ a ↔ e ∈ b) : a = b := by
  have hirrefl : Std.Irrefl fun d e : Entry => codeLt d.code e.code = true := ⟨fun e => by simp [codeLt_irrefl]⟩
  have hantisymm : Std.Antisymm fun d e : Entry => codeLt d.code e.code = true :=
    ⟨fun d _ hde hed => absurd (codeLt_trans hde hed) (hirrefl.irrefl d)⟩
  exact ha.eq_of_mem_iff hb h

/-- Settles O57: the same map has the same entries, and they stand in the same order. -/
theorem sameMapIsTheSameTable : Obligations.SameMapIsTheSameTable := by
  rintro m a b ⟨-, hpa, hra, -⟩ ⟨-, hpb, hrb, -⟩ h
  exact eq_of_rising hra hrb fun e => by rw [mem_iff_lookup hpa, mem_iff_lookup hpb, h]

end Sys2Proof.Machine
end

section
/-! The wait of a `DEC` (spec/41_symbol_decode.md, spec/20_memory.md R54), and what its result depends on (R110). -/

namespace Sys2Proof.Machine

/-- Settles O31: the bits lead to an internal node, and no token is left to go on with. -/
theorem decWaitsAtAnInternalNode : Obligations.DecWaitsAtAnInternalNode := by
  intro s t p e hready ht hwf he hpre hne htok
  obtain ⟨-, hp, -, -⟩ := hwf
  have hi : isInternal (s.table t) p = true := isInternal_iff.2 ⟨e, he, hpre, hne⟩
  exact exec_dec_walkedTo hready ht hp hi (toks := []) (by simpa using htok)

/-! ### Two blocks that agree on the table of a DEC (R110) -/

/-- Two blocks agree on table t and on the fault record, and have counted as many bits from `n` and from `n'`. -/
structure SameWalkInput (t : BitVec 4) (n n' : RegWord) (s s' : State) : Prop where
  table : s.table t = s'.table t
  fault : s.fault = s'.fault
  cause : s.fault = true → s.cause = s'.cause
  count : s.bitcnt - n = s'.bitcnt - n'

/-- Besides, their `DEC` stands at the same node, or has ended with the same result. -/
structure SameWalk (t : BitVec 4) (n n' : RegWord) (s s' : State) : Prop extends SameWalkInput t n n' s s' where
  inFlight : s.inFlight = s'.inFlight
  walking  : ∀ c, s.inFlight = some c → ∃ p, c = .walk t p
  result   : s.inFlight = none → s.resStatus = s'.resStatus ∧ s.resNbits = s'.resNbits ∧ s.resValue = s'.resValue

section
variable {t : BitVec 4} {n n' : RegWord} {s s' : State}

theorem sameWalk_complete (h : SameWalkInput t n n' s s') (st : ResStatus) (v : RegWord) (k : Nat) :
    SameWalk t n n' (complete st v k s) (complete st v k s') where
  toSameWalkInput := ⟨h.table, h.fault, h.cause, h.count⟩
  inFlight := rfl
  walking _ hc := nomatch hc
  result _ := ⟨rfl, rfl, rfl⟩

theorem sameWalk_raise (h : SameWalkInput t n n' s s') (c : Cause) (k : Nat) :
    SameWalk t n n' (raise c k s) (raise c k s') where
  toSameWalkInput := ⟨h.table, rfl, fun _ => rfl, h.count⟩
  inFlight := rfl
  walking _ hc := nomatch hc
  result _ := ⟨rfl, rfl, rfl⟩

theorem sameWalk_waiting (h : SameWalkInput t n n' s s') (p : Bits) :
    SameWalk t n n' { s with inFlight := some (.walk t p) } { s' with inFlight := some (.walk t p) } where
  toSameWalkInput := ⟨h.table, h.fault, h.cause, h.count⟩
  inFlight := rfl
  walking _ hc := ⟨p, (Option.some.inj hc).symm⟩
  result hi := nomatch hi

theorem sameWalkInput_countBit (h : SameWalkInput t n n' s s') : SameWalkInput t n n' (countBit s) (countBit s') where
  table := h.table
  fault := h.fault
  cause := h.cause
  count := by rw [countBit_bitcnt, countBit_bitcnt, add_sub_right_comm, add_sub_right_comm, h.count]

/-- What stands at a node is the table's to say. -/
theorem sameWalk_walkAt (h : SameWalkInput t n n' s s') (p : Bits) :
    SameWalk t n n' (walkAt t p s) (walkAt t p s') := by
  rcases walkAt_cases t p s with ⟨sym, hl, e⟩ | ⟨hl, hi, e⟩ | ⟨hl, hi, e⟩ <;> rw [e]
  · rw [walkAt_of_lookup (h.table ▸ hl)]
    exact sameWalk_complete h _ _ _
  · have e' : walkAt t p s' = { s' with inFlight := some (.walk t p) } := by
      rw [h.table] at hl hi
      simp [walkAt, hl, hi]
    rw [e']
    exact sameWalk_waiting h p
  · rw [walkAt_of_missing (h.table ▸ hl) (h.table ▸ hi)]
    exact sameWalk_raise h _ _

theorem sameWalk_takeToken (h : SameWalk t n n' s s') {c : InFlight} (hc : s.inFlight = some c) (tok : Token) :
    SameWalk t n n' (takeToken c tok s) (takeToken c tok s') := by
  obtain ⟨p, rfl⟩ := h.walking c hc
  have hbit (b : Bool) : SameWalk t n n' (takeBit (.walk t p) b s) (takeBit (.walk t p) b s') :=
    sameWalk_walkAt (sameWalkInput_countBit h.toSameWalkInput) (p ++ [b])
  cases tok with
  | bit0 => exact hbit false
  | bit1 => exact hbit true
  | eos => exact sameWalk_complete h.toSameWalkInput .none 0 p.length

theorem sameWalk_withTokens (h : SameWalk t n n' s s') (toks : List Token) :
    SameWalk t n n' { s with tokens := toks } { s' with tokens := toks } :=
  ⟨⟨h.table, h.fault, h.cause, h.count⟩, h.inFlight, h.walking, h.result⟩

end

theorem sameWalk_serve {t : BitVec 4} {n n' : RegWord} : ∀ {s s' : State} (toks : List Token), SameWalk t n n' s s' →
    SameWalk t n n' (serve toks s) (serve toks s') ∧ (serve toks s).tokens = (serve toks s').tokens
  | _, _, [], h => ⟨sameWalk_withTokens h [], rfl⟩
  | s, s', tok :: rest, h => by
    rcases idle_or_waiting s with hi | ⟨c, hc⟩
    · rw [serve_idle _ hi, serve_idle _ (h.inFlight ▸ hi)]
      exact ⟨sameWalk_withTokens h _, rfl⟩
    · rw [serve_cons _ _ hc, serve_cons _ _ (h.inFlight ▸ hc)]
      exact sameWalk_serve rest (sameWalk_takeToken h hc tok)

/-- A `DEC` on a ready block, with the checks of its table (R79, R101, R107). -/
theorem exec_dec_checks {s : State} {t : BitVec 4} (h : Ready s) :
    exec (.dec t) s = .next
      (if s.lacksTable t then raise .badTable 0 s
      else if entries (s.table t) = 0 then raise .emptyTable 0 s
      else serve s.tokens { s with inFlight := some (.walk t []) }) := by
  rw [exec, execDec, accept_ready h]
  rfl

/-- Settles O33: both blocks pass or fail the same check, and walk through the same table with the same tokens. -/
theorem decDependsOnItsTableAndTokensOnly : Obligations.DecDependsOnItsTableAndTokensOnly := by
  intro s s' u u' t hready hready' hcfg htab htok h h'
  suffices hsame : SameWalk t s.bitcnt s'.bitcnt u u' ∧ u.tokens = u'.tokens by
    obtain ⟨hw, htokens⟩ := hsame
    exact ⟨hw.inFlight, htokens, hw.fault, hw.count, hw.result, hw.cause⟩
  have hinput : SameWalkInput t s.bitcnt s'.bitcnt s s' :=
    ⟨htab, hready.2.trans hready'.2.symm, fun hf => by simp [hready.2] at hf, by rw [sub_self, sub_self]⟩
  have hlacks : s.lacksTable t = s'.lacksTable t := by rw [State.lacksTable, State.lacksTable, hcfg]
  rw [exec_dec_checks hready, hlacks, htab] at h
  rw [exec_dec_checks hready'] at h'
  cases h
  cases h'
  split
  · exact ⟨sameWalk_raise hinput .badTable 0, htok⟩
  · split
    · exact ⟨sameWalk_raise hinput .emptyTable 0, htok⟩
    · have hserve := sameWalk_serve s.tokens (sameWalk_waiting hinput [])
      rw [htok] at hserve ⊢
      exact hserve

end Sys2Proof.Machine
end

section
/-! The raw reads (spec/42_raw_bits.md): the value of bits taken (R113, R115), EXTEND (R119 to R121), the wait, and the
frame of the three commands that read bits (R110, R122). -/

namespace Sys2Proof.Machine

/-! ### The value of a bit string (R115) -/

/-- Settles O36: the first bit weighs two to the number of bits after it. -/
theorem firstBitTakenWeighsMost : Obligations.FirstBitTakenWeighsMost := by
  intro bs
  induction bs with
  | nil => rfl
  | cons b bs ih =>
    rw [valueOf_cons, ih, List.length_cons, Finset.sum_range_succ']
    simp [Nat.add_comm, Nat.sub_sub]

theorem valueOf_append_singleton (bs : Bits) (b : Bool) : valueOf (bs ++ [b]) = pushBit (valueOf bs) b := by
  simp [valueOf]

/-! ### A raw read that gets all its bits -/

/-- A raw read whose bits are there takes them and no more, and completes with their value (R113, R118). -/
theorem exec_raw_full {s : State} {n : BitVec 8} {bs : Bits} {rest : List Token} (ext : Bool) (hready : Ready s)
    (hn : rawLenInRange n) (hlen : bs.length = n.toNat) (htok : s.tokens = bitTokens bs ++ rest) :
    exec (if ext then .rcvx n else .rcv n) s = .next
      { s with
        resStatus := .ok, resNbits := BitVec.ofNat 5 n.toNat, resValue := rawResult ext n.toNat (valueOf bs),
        bitcnt := s.bitcnt + BitVec.ofNat 32 n.toNat, tokens := rest } := by
  rcases List.eq_nil_or_concat' bs with rfl | ⟨init, b, rfl⟩
  · have hzero : n.toNat = 0 := hlen.symm
    rw [exec_raw_ready ext hready hn, rawAt_of_le ext 0 s hzero.le, serve_idle _ rfl]
    simp [complete, hzero, hready.1, htok, bitTokens]
  · have hlen' : init.length + 1 = n.toNat := by simpa using hlen
    have htok' : s.tokens = bitTokens init ++ Token.ofBit b :: rest := by simp [htok, bitTokens]
    rw [exec_raw_readTo ext hready hn (by omega) htok',
      serve_cons (c := .raw ext n.toNat init.length (valueOf init)) _ _ rfl, takeToken_ofBit, takeBit,
      rawAt_of_le ext _ _ hlen'.ge, ← valueOf_append_singleton, serve_idle _ rfl]
    simp [complete, State.readTo, countBit, ← hlen', hready.1, BitVec.ofNat_add, BitVec.add_assoc]

/-- Settles O34: the result of an `RCV` is the value of its bits, in 32 bits. -/
theorem rcvReturnsTheValueOfItsBits : Obligations.RcvReturnsTheValueOfItsBits := fun _ _ _ _ hready hn hlen htok =>
  exec_raw_full false hready hn hlen htok

/-- Settles O39: the bits leave the read below its width, and no token is left to go on with. -/
theorem rawReadWaitsWithItsPartialValue : Obligations.RawReadWaitsWithItsPartialValue := by
  intro s n ext bs hready hn hlt htok
  exact exec_raw_readTo ext hready hn hlt (toks := []) (by simpa using htok)

/-! ### EXTEND (R119) -/

/-- A raw value whose first bit is 1 stands for itself. -/
theorem extend_of_ge {raw n : Nat} (hn : 1 ≤ n) (hge : 2 ^ (n - 1) ≤ raw) (hlt : raw < 2 ^ n) : extend raw n = raw := by
  have hbit : raw.testBit (n - 1) = true :=
    Nat.testBit_of_two_pow_le_and_two_pow_add_one_gt hge (by rwa [Nat.sub_add_cancel hn])
  rw [extend, if_neg (Nat.one_le_iff_ne_zero.1 hn), if_pos hbit]

/-- A raw value whose first bit is 0 stands for a negative one. -/
theorem extend_of_lt {raw n : Nat} (hn : 1 ≤ n) (hlt : raw < 2 ^ (n - 1)) : extend raw n = raw - 2 ^ n + 1 := by
  have hbit : ¬ raw.testBit (n - 1) = true := by simp [Nat.testBit_lt_two_pow hlt]
  rw [extend, if_neg (Nat.one_le_iff_ne_zero.1 hn), if_neg hbit]

/-- The width `n` of a value is twice the range of its other bits. -/
theorem two_pow_eq_double {n : Nat} (hn : 1 ≤ n) : 2 ^ n = 2 * 2 ^ (n - 1) := by
  rw [← pow_succ', Nat.sub_add_cancel hn]

theorem extend_range {raw n : Nat} (hn : 1 ≤ n) (hraw : raw < 2 ^ n) :
    (-(2 ^ n - 1 : Int) ≤ extend raw n ∧ extend raw n ≤ -2 ^ (n - 1)) ∨
      (2 ^ (n - 1) ≤ extend raw n ∧ extend raw n ≤ 2 ^ n - 1) := by
  have hdouble := two_pow_eq_double hn
  have hdoubleInt : (2 : Int) ^ n = 2 * 2 ^ (n - 1) := by exact_mod_cast hdouble
  have hcast : ((2 ^ (n - 1) : Nat) : Int) = 2 ^ (n - 1) := by push_cast; rfl
  rcases Nat.lt_or_ge raw (2 ^ (n - 1)) with hlt | hge
  · rw [extend_of_lt hn hlt]
    omega
  · rw [extend_of_ge hn hge hraw]
    omega

/-- Settles O41: the two edges below the first bit, the two above it, and the range between. -/
theorem extendHasTheValuesOfR120 : Obligations.ExtendHasTheValuesOfR120 := by
  intro n hn _
  have hdouble := two_pow_eq_double hn
  have hdoubleInt : (2 : Int) ^ n = 2 * 2 ^ (n - 1) := by exact_mod_cast hdouble
  have hcast : ((2 ^ (n - 1) : Nat) : Int) = 2 ^ (n - 1) := by push_cast; rfl
  have hpos : 0 < 2 ^ (n - 1) := Nat.two_pow_pos _
  refine ⟨?_, ?_, ?_, ?_, fun raw hraw => extend_range hn hraw⟩
  · rw [extend_of_lt hn hpos]
    omega
  · rw [extend_of_lt hn (by omega)]
    omega
  · rw [extend_of_ge hn le_rfl (by omega)]
    omega
  · rw [extend_of_ge hn (by omega) (by omega)]
    omega

/-! ### The result of an RCVX (R118, R120, R121) -/

/-- A value extended from at most 16 bits has a magnitude below 2^16 (R120). -/
theorem natAbs_extend_lt {raw n : Nat} (hn : n ≤ 16) (hraw : raw < 2 ^ n) : (extend raw n).natAbs < 2 ^ 16 := by
  rcases Nat.eq_zero_or_pos n with rfl | hpos
  · exact Nat.two_pow_pos 16
  · have hle : (2 : Int) ^ n ≤ 2 ^ 16 := pow_le_pow_right₀ (by decide) hn
    have hhalf : (0 : Int) < 2 ^ (n - 1) := by positivity
    have hrange := extend_range hpos hraw
    omega

/-- An extended result is the extended value as a signed number (R118). -/
theorem toInt_rawResult_extended {raw n : Nat} (hn : n ≤ 16) (hraw : raw < 2 ^ n) :
    (rawResult true n raw).toInt = extend raw n := by
  have hlt := natAbs_extend_lt hn hraw
  rw [rawResult, if_pos rfl]
  exact BitVec.toInt_ofInt_eq_self (by decide) (by omega) (by omega)

/-- Settles O35: the value of n bits is below 2^n, so that its extension fits the register. -/
theorem rcvxReturnsTheExtendedValueOfItsBits : Obligations.RcvxReturnsTheExtendedValueOfItsBits := by
  intro s n bs rest hready hn hlen htok
  exact ⟨_, exec_raw_full true hready hn hlen htok, rfl, toInt_rawResult_extended hn (hlen ▸ valueOf_lt bs)⟩

/-- What the bit source can offer a command that needs n bits (R47): all of them, fewer and then a `NONE`, or fewer so far. -/
inductive Offered (n : Nat) : List Token → Prop where
  | all (bs : Bits) (rest : List Token) (hlen : bs.length = n) : Offered n (bitTokens bs ++ rest)
  | ended (bs : Bits) (rest : List Token) (hlt : bs.length < n) : Offered n (bitTokens bs ++ .eos :: rest)
  | partly (bs : Bits) (hlt : bs.length < n) : Offered n (bitTokens bs)

theorem offered_cons {n : Nat} {toks : List Token} (b : Bool) (h : Offered n toks) :
    Offered (n + 1) (Token.ofBit b :: toks) := by
  cases h with
  | all bs rest hlen => exact .all (b :: bs) rest (congrArg (· + 1) hlen)
  | ended bs rest hlt => exact .ended (b :: bs) rest (Nat.succ_lt_succ hlt)
  | partly bs hlt => exact .partly (b :: bs) (Nat.succ_lt_succ hlt)

theorem offered : ∀ (n : Nat) (toks : List Token), Offered n toks
  | 0, toks => .all [] toks rfl
  | n + 1, [] => .partly [] n.succ_pos
  | n + 1, .eos :: rest => .ended [] rest n.succ_pos
  | n + 1, .bit0 :: toks => offered_cons false (offered n toks)
  | n + 1, .bit1 :: toks => offered_cons true (offered n toks)

/-- An `RCVX` that completes `OK` got all its bits, and its result is their value, extended. -/
theorem exec_rcvx_ok {s u : State} {n : BitVec 8} (h : exec (.rcvx n) s = .next u) (hidle : u.inFlight = none)
    (hok : u.resStatus = .ok) :
    n.toNat ≤ 16 ∧ ∃ raw, raw < 2 ^ n.toNat ∧ u.resValue = rawResult true n.toNat raw := by
  obtain ⟨hready, hn⟩ : Ready s ∧ rawLenInRange n := by
    obtain ⟨hsidle, hcarried⟩ := exec_carried h
    cases hcarried with
    | rejected | raised => simp at hok
    | readExtended _ hf hn => exact ⟨⟨hsidle, hf⟩, hn⟩
  generalize htok : s.tokens = toks
  cases offered n.toNat toks with
  | all bs rest hlen =>
    cases h.symm.trans (exec_raw_full true hready hn hlen htok)
    exact ⟨hn, valueOf bs, hlen ▸ valueOf_lt bs, rfl⟩
  | ended bs rest hlt =>
    cases h.symm.trans (rawReadEndsWithNoneAtEndOfStream s n _ bs rest hready hn (.inr rfl) hlt htok)
    cases hok
  | partly bs hlt =>
    cases h.symm.trans (rawReadWaitsWithItsPartialValue s n true bs hready hn hlt htok)
    cases hidle

theorem getLsbD_eq_false_of_toNat_lt {w j : Nat} {x : BitVec w} (h : x.toNat < 2 ^ j) : x.getLsbD j = false := by
  rw [← BitVec.testBit_toNat, Nat.testBit_lt_two_pow h]

/-- A signed word of small magnitude has copies of its sign above its low bits (R121). -/
theorem getLsbD_eq_msb_of_natAbs_lt {x : RegWord} {j : Nat} (h : x.toInt.natAbs < 2 ^ 16) (hj : 16 ≤ j) (hj' : j < 32) :
    x.getLsbD j = x.msb := by
  have hpow : 2 ^ 16 ≤ 2 ^ j := Nat.pow_le_pow_right (by decide) hj
  rw [BitVec.toInt_eq_msb_cond] at h
  cases hm : x.msb with
  | false =>
    rw [hm, if_neg Bool.false_ne_true, Int.natAbs_natCast] at h
    exact getLsbD_eq_false_of_toNat_lt (h.trans_le hpow)
  | true =>
    rw [hm, if_pos rfl] at h
    have hnot : (~~~x).toNat < 2 ^ 16 := by
      rw [BitVec.toNat_not]
      omega
    have hbit := getLsbD_eq_false_of_toNat_lt (hnot.trans_le hpow)
    simpa [hj'] using hbit

/-- Settles O42: the magnitude is that of the extended value (R120), and leaves the upper bits to the sign. -/
theorem rcvxResultIsInItsRange : Obligations.RcvxResultIsInItsRange := by
  intro s u n hpos h hidle hok
  obtain ⟨hn, raw, hraw, hvalue⟩ := exec_rcvx_ok h hidle hok
  have hint : u.resValue.toInt = extend raw n.toNat := hvalue ▸ toInt_rawResult_extended hn hraw
  have hcast : ((2 ^ n.toNat : Nat) : Int) = 2 ^ n.toNat := by push_cast; rfl
  have hcast' : ((2 ^ (n.toNat - 1) : Nat) : Int) = 2 ^ (n.toNat - 1) := by push_cast; rfl
  have hone : 0 < 2 ^ (n.toNat - 1) := Nat.two_pow_pos _
  have hrange := extend_range hpos hraw
  rw [hint]
  refine ⟨by omega, by omega, fun j hj hj' => ?_⟩
  exact getLsbD_eq_msb_of_natAbs_lt (hint ▸ natAbs_extend_lt hn hraw) (by omega) hj'

/-! ### The frame of the commands that read bits (R110, R122) -/

/-- The fault record is that of `s`, or the command has ended with a fault. -/
def RecordKept (s u : State) : Prop :=
  (u.fault = s.fault ∧ u.cause = s.cause) ∨ (u.inFlight = none ∧ u.resStatus = .fault)

theorem tokenEffect_recordKept {c : InFlight} {tok : Token} {s v u : State} (hv : v.fault = s.fault ∧ v.cause = s.cause)
    (h : TokenEffect c v tok u) : RecordKept s u := by
  cases h with
  | ended | leaf | inner | full | partly => exact .inl hv
  | off => exact .inr ⟨rfl, rfl⟩

theorem serve_recordKept {s v : State} (toks : List Token) (h : RecordKept s v) : RecordKept s (serve toks v) := by
  refine serve_keeps (P := RecordKept s) (fun c tok w hc hw => ?_) (fun _ _ hw => hw) toks v h
  rcases hw with hw | ⟨hidle, -⟩
  · exact tokenEffect_recordKept hw (takeToken_effect c tok w)
  · simp [hc] at hidle

/-- A command that reads bits (R101, R113, R118). -/
inductive ReadsBits : Instr → Prop where
  | dec (t : BitVec 4) : ReadsBits (.dec t)
  | rcv (n : BitVec 8) : ReadsBits (.rcv n)
  | rcvx (n : BitVec 8) : ReadsBits (.rcvx n)

theorem carried_readsBits {i : Instr} {s u : State} (hi : ReadsBits i) (h : Carried s (.command i) u) :
    SameStore s u ∧ RecordKept s u := by
  cases h with
  | rejected => exact ⟨⟨rfl, rfl, rfl, rfl⟩, .inl ⟨rfl, rfl⟩⟩
  | raised => exact ⟨⟨rfl, rfl, rfl, rfl⟩, .inr ⟨rfl, rfl⟩⟩
  | acknowledged | cleared | inserted => cases hi
  | walked t =>
    have hbegin : SameStore s { s with inFlight := some (.walk t []) } := ⟨rfl, rfl, rfl, rfl⟩
    exact ⟨hbegin.trans (serve_sameStore s.tokens _), serve_recordKept s.tokens (.inl ⟨rfl, rfl⟩)⟩
  | read | readExtended =>
    exact ⟨(rawAt_sameStore ..).trans (serve_sameStore s.tokens _), serve_recordKept s.tokens (.inl (rawAt_record ..))⟩

/-- Settles O43: a command that reads bits takes the first of the tokens offered, and writes no more than `BITCNT`, its
result and, with a fault, the record. -/
theorem bitReadFrame : Obligations.BitReadFrame := by
  intro i t n s u hi h
  have hreads : ReadsBits i := by
    rcases hi with rfl | rfl | rfl
    · exact .dec t
    · exact .rcv n
    · exact .rcvx n
  obtain ⟨-, hcarried⟩ := exec_carried h
  obtain ⟨hstore, hrecord⟩ := carried_readsBits hreads hcarried
  obtain ⟨k, -, htok, -⟩ := carried_takesFirstOf hcarried
  refine ⟨hstore.tables, hstore.cfg, hstore.cmds, hstore.rst, htok ▸ List.drop_suffix k _, fun hne => ?_⟩
  exact hrecord.resolve_right fun hfault => hne hfault.2

end Sys2Proof.Machine
end

section
/-! The register read port (spec/10_state.md R27, R29, R32, R35, R36, spec/60_exceptions.md R146). -/

namespace Sys2Proof.Machine

/-! ### STATUS and RESULT -/

theorem readReg_status (s : State) : readReg s 0x00 = statusWord s := rfl

theorem readReg_result (s : State) : readReg s 0x04 = resultWord s := rfl

/-- Settles O54: `CAUSE` stands four bits above `FAULT`, which stands lowest. -/
theorem statusWordHasItsFields : Obligations.StatusWordHasItsFields := by
  intro s
  rw [readReg_status, statusWord]
  constructor
  · simp only [toNat_append_eq_mul_add, BitVec.toNat_ofBool]
    simp
  · simp only [BitVec.getLsbD_append]
    simp [irq]

/-- Settles O55: `RES_NBITS` stands eight bits above `RES_STATUS`, which stands lowest. -/
theorem resultWordHasItsFields : Obligations.ResultWordHasItsFields := by
  intro s
  rw [readReg_result, resultWord]
  simp only [toNat_append_eq_mul_add]
  cases s.resStatus <;> simp [ResStatus.code]

/-! ### The read map (R36) -/

/-- A read depends on the register that the address names (R36). -/
theorem readReg_congr (s : State) {a b : BitVec 8} (h : a.toNat / 4 = b.toNat / 4) : readReg s a = readReg s b := by
  rw [readReg, readReg, h]

/-- Masking an address leaves the register it names. -/
theorem toNat_and_div_four (a : BitVec 8) : a.toNat / 4 = (a &&& 0xFC).toNat / 4 := by
  have hlt : a.toNat / 4 < 2 ^ 6 := by omega
  have hmask : (0xFC : BitVec 8).toNat / 2 ^ 2 = 2 ^ 6 - 1 := by decide
  calc a.toNat / 4 = a.toNat / 2 ^ 2 &&& (2 ^ 6 - 1) := (Nat.and_two_pow_sub_one_of_lt_two_pow hlt).symm
    _ = (a &&& 0xFC).toNat / 4 := by rw [BitVec.toNat_and, ← hmask, ← Nat.and_div_two_pow]

/-- Above `CONFIG`, only the words 16 to 31 are registers (R36). -/
theorem readReg_above_config (s : State) {a : BitVec 8} (h : 5 ≤ a.toNat / 4) :
    readReg s a =
      if 16 ≤ a.toNat / 4 ∧ a.toNat / 4 < 32 then tblcntWord s (BitVec.ofNat 4 (a.toNat / 4 - 16)) else 0 := by
  unfold readReg
  split
  case h_6 => rfl
  all_goals omega

theorem readReg_reserved (s : State) {a : BitVec 8} (h : (0x14 ≤ a.toNat ∧ a.toNat < 0x40) ∨ 0x80 ≤ a.toNat) :
    readReg s a = 0 := by
  rw [readReg_above_config s (by omega), if_neg (by omega)]

theorem readReg_tblcnt (s : State) (t : BitVec 4) : readReg s (BitVec.ofNat 8 (0x40 + 4 * t.toNat)) = tblcntWord s t := by
  have hword : (BitVec.ofNat 8 (0x40 + 4 * t.toNat)).toNat / 4 = 16 + t.toNat := by
    rw [BitVec.toNat_ofNat]
    omega
  rw [readReg_above_config s (by omega), if_pos (by omega), hword, Nat.add_sub_cancel_left, BitVec.ofNat_toNat,
    BitVec.setWidth_eq]

/-- A conforming configuration fits the fields of `CONFIG` (R8, R36). -/
theorem toNat_configWord {s : State} (h : s.cfg.Conforming) :
    (configWord s).toNat = s.cfg.maxEntries * 2 ^ 16 + s.cfg.tableCount := by
  obtain ⟨⟨-, ht⟩, -, hm⟩ := h
  have ht' : s.cfg.tableCount % 2 ^ 5 = s.cfg.tableCount := Nat.mod_eq_of_lt (by omega)
  have hm' : s.cfg.maxEntries % 2 ^ 16 = s.cfg.maxEntries := Nat.mod_eq_of_lt (by omega)
  simp only [configWord, toNat_append_eq_mul_add, BitVec.toNat_ofNat, ht', hm']
  simp

/-- Settles O56: the map by the register that the address names, a conforming `CONFIG` by the widths of its fields. -/
theorem readMapIsThatOfR36 : Obligations.ReadMapIsThatOfR36 := by
  intro s a hcfg
  refine ⟨readReg_congr s (toNat_and_div_four a), rfl, rfl, ?_, fun h h' => readReg_reserved s (.inl ⟨h, h'⟩),
    fun h => readReg_reserved s (.inr h), readReg_tblcnt s⟩
  rw [readReg_config, toNat_configWord hcfg]

end Sys2Proof.Machine
end

section
/-! The reference bit source at a byte boundary (spec/20_memory.md R49 to R51, R55). -/

namespace Sys2Proof.Machine

/-- Within a byte the source answers with the next bit, and crosses the byte after the last (R55). -/
theorem pop_bit {r : RefSource} {b : Byte} (hm : r.markerFfBitsDelivered = true) (he : r.exhausted = false)
    (hb : r.buf[r.i]? = some b) :
    r.pop = (Token.ofBit (b.getLsbD (7 - r.k)), if r.k + 1 = 8 then r.crossByte b else { r with k := r.k + 1 }) := by
  simp [RefSource.pop, he, hb, RefSource.atMarker, hm]

/-- The answers to `n + 1` requests that reach the end of the byte are its last `n + 1` bits. -/
theorem pops_restOfByte {b : Byte} : ∀ (n : Nat) (r : RefSource), r.markerFfBitsDelivered = true → r.exhausted = false →
    r.buf[r.i]? = some b → r.k + (n + 1) = 8 →
    RefSource.pops (n + 1) r = (bitTokens (bitsOf (n + 1) b.toNat), r.crossByte b)
  | 0, r, hm, he, hb, hk => by
    have hk7 : r.k = 7 := by omega
    rw [RefSource.pops, pop_bit hm he hb, hk7]
    rfl
  | n + 1, r, hm, he, hb, hk => by
    have hpop := pop_bit hm he hb
    rw [if_neg (by omega)] at hpop
    have ih := pops_restOfByte n { r with k := r.k + 1 } hm he hb (by simp only; omega)
    have hbit : 7 - r.k = n + 1 := by omega
    rw [RefSource.pops, hpop, ih, hbit]
    rfl

/-- An exhausted source answers `NONE` for ever (R51). -/
theorem pops_exhausted {r : RefSource} (he : r.exhausted = true) :
    ∀ n, (RefSource.pops n r).1 = List.replicate n Token.eos
  | 0 => rfl
  | n + 1 => by
    have hpop : r.pop = (.eos, r) := by simp [RefSource.pop, he]
    rw [RefSource.pops, hpop, List.replicate_succ, pops_exhausted he n]

/-- Settles O60: eight requests take the eight bits of the byte, and what follows is `crossByte`'s. -/
theorem refSourceDeliversAByteMsbFirst : Obligations.RefSourceDeliversAByteMsbFirst := by
  intro r b hm he hk hb
  have hpops := pops_restOfByte 7 r hm he hb (by omega)
  rw [hpops]
  refine ⟨rfl, fun hne => ?_, fun hff hzero => ?_, fun hff hmarker => pops_exhausted ?_⟩
  · rw [RefSource.crossByte, if_neg hne, hk]
  · rw [RefSource.crossByte, if_pos hff, if_pos hzero, hk]
  · rw [RefSource.crossByte, if_pos hff, if_neg hmarker]

end Sys2Proof.Machine
end
